-- ==== Sys2Proof/Word.lean ====
section
/-! DEFINITION. The machine word of VSMAG and the byte of its memory images (00_scope.md R9, R10). -/

namespace Sys2Proof

/-- A 32-bit word, bit 0 least significant (R9): a command, operand, result or control-register word, `u32` of R10. -/
abbrev Word := BitVec 32

/-- One byte of a memory image (20_memory.md R62). -/
abbrev Byte := BitVec 8

/-- `word(v)` of R10: the two's-complement pattern of an integer. R10 defines it on `[-2^31, 2^32 - 1]`, the only range
the rules use it on. -/
abbrev word (v : Int) : Word := BitVec.ofInt 32 v

end Sys2Proof
end

