-- ==== Sys2Proof/Syntax.lean ====
section
/-! DEFINITION. The command set as syntax: a command as the host sends it (30_encoding.md R80) and one constructor of
`Instr` per row of the opcode table (R85), with the operands R82 gives the row. -/

namespace Sys2Proof

/-- One command on the port (R80): the command word and the three operand words. -/
structure Command where
  cmd : Word
  a : Word
  b : Word
  c : Word
deriving DecidableEq, Repr

/-- The mip mode of MIPSEL (R85). Value 3 of the field is reserved and has no constructor. -/
inductive MipMode where
  | any
  | evenOnly
  | oddOnly
deriving DecidableEq, Repr

/-- A decoded command. Operand words the opcode ignores (R82) are no part of it. A CSR address is a number; that it fits
the 8-bit field is `Instr.wellFormed` (log entry 19). -/
inductive Instr where
  /-- `PTADDR mip, x, y` (R115). -/
  | ptaddr (mip x y : Word)
  /-- `MIPSEL.ANY footprint, shadowBias, globalBias` (R136). -/
  | mipselAny (footprint shadowBias globalBias : Word)
  /-- `MIPSEL.EVEN footprint, shadowBias, globalBias` (R137). -/
  | mipselEven (footprint shadowBias globalBias : Word)
  /-- `MIPSEL.ODD footprint, shadowBias, globalBias` (R138). -/
  | mipselOdd (footprint shadowBias globalBias : Word)
  /-- `FXPACK xyTile, zSlice` (R155). -/
  | fxpack (xyTile zSlice : Word)
  /-- `FXUNPZ Z` (R156). -/
  | fxunpz (z : Word)
  /-- `FXISINV Z` (R157). -/
  | fxisinv (z : Word)
  /-- `IVPACK flags, vsmId` (R172). -/
  | ivpack (flags vsmId : Word)
  /-- `IVFLAGS payload` (R173). -/
  | ivflags (payload : Word)
  /-- `IVID payload` (R174). -/
  | ivid (payload : Word)
  /-- `CSRR csr` (R185). -/
  | csrr (csr : Nat)
  /-- `CSRW csr, value` (R186). -/
  | csrw (csr : Nat) (value : Word)
deriving DecidableEq, Repr

end Sys2Proof
end

