-- ==== Sys2Proof/WellFormed.lean ====
section
/-! DEFINITION. Which terms of `Instr` have an encoding: the CSR address fits its 8-bit field (30_encoding.md R81, R83;
R89 calls a CSR above 255 an assembly error). Every other operand is a whole word, so its type says all (R83). -/

namespace Sys2Proof

/-- The one check: a CSR address is below 256. -/
def Instr.wellFormed : Instr → Bool
  | .ptaddr _ _ _ => true
  | .mipselAny _ _ _ => true
  | .mipselEven _ _ _ => true
  | .mipselOdd _ _ _ => true
  | .fxpack _ _ => true
  | .fxunpz _ => true
  | .fxisinv _ => true
  | .ivpack _ _ => true
  | .ivflags _ => true
  | .ivid _ => true
  | .csrr csr => decide (csr < 256)
  | .csrw csr _ => decide (csr < 256)

end Sys2Proof
end

