-- ==== Sys2Proof/Decode.lean ====
section
/-! DEFINITION. The decoder (30_encoding.md R81, R82, R85 to R87), total on any four words and rejecting by name, and the
encoder written from the same table. The halt check that R86 makes first depends on state and stands with the machine
(Machine/Ops.lean): everything here is about the words alone. -/

namespace Sys2Proof

/-- Why a command word is illegal (R86, R87). Each is `E_ILLEGAL`; the name says which line of R86 rejected it. -/
inductive DecodeError where
  /-- No row of R85 has this opcode. -/
  | unknownOpcode
  /-- `RSV0` or `RSV1` is not zero. -/
  | reservedField
  /-- `MODE = 3` on MIPSEL. -/
  | reservedMode
  /-- `MODE` is not zero on an opcode other than MIPSEL. -/
  | modeNotZero
  /-- The CSR field is not zero on an opcode other than CSRR and CSRW. -/
  | csrNotZero
deriving DecidableEq, Repr

/-- `OP = CMD[7:0]` (R81). -/
def opField (cmd : Word) : BitVec 8 := cmd.extractLsb' 0 8

/-- `MODE = CMD[9:8]` (R81). -/
def modeField (cmd : Word) : BitVec 2 := cmd.extractLsb' 8 2

/-- `RSV0 = CMD[15:10]` (R81). -/
def rsv0Field (cmd : Word) : BitVec 6 := cmd.extractLsb' 10 6

/-- `CSR = CMD[23:16]` (R81). -/
def csrField (cmd : Word) : BitVec 8 := cmd.extractLsb' 16 8

/-- `RSV1 = CMD[31:24]` (R81). -/
def rsv1Field (cmd : Word) : BitVec 8 := cmd.extractLsb' 24 8

/-- The opcodes of R85. MIPSEL is one opcode with three modes. -/
inductive Opcode where
  | ptaddr | mipsel | fxpack | fxunpz | fxisinv | ivpack | ivflags | ivid | csrr | csrw
deriving DecidableEq, Repr

/-- The `OP` column of R85. -/
def Opcode.ofBits (op : BitVec 8) : Option Opcode :=
  if op = 0x01#8 then some .ptaddr
  else if op = 0x02#8 then some .mipsel
  else if op = 0x03#8 then some .fxpack
  else if op = 0x04#8 then some .fxunpz
  else if op = 0x05#8 then some .fxisinv
  else if op = 0x06#8 then some .ivpack
  else if op = 0x07#8 then some .ivflags
  else if op = 0x08#8 then some .ivid
  else if op = 0x10#8 then some .csrr
  else if op = 0x11#8 then some .csrw
  else none

/-- The opcodes that use the CSR field and run while halted (R86). -/
def isCsrOpcode (op : BitVec 8) : Bool := op == 0x10#8 || op == 0x11#8

/-- The operands R82 gives an opcode, taken from a command whose fields R86 has accepted. -/
def Opcode.instr (op : Opcode) (c : Command) : Instr :=
  match op with
  | .ptaddr => .ptaddr c.a c.b c.c
  | .mipsel =>
    if modeField c.cmd = 0#2 then .mipselAny c.a c.b c.c
    else if modeField c.cmd = 1#2 then .mipselEven c.a c.b c.c
    else .mipselOdd c.a c.b c.c
  | .fxpack => .fxpack c.a c.b
  | .fxunpz => .fxunpz c.a
  | .fxisinv => .fxisinv c.a
  | .ivpack => .ivpack c.a c.b
  | .ivflags => .ivflags c.a
  | .ivid => .ivid c.a
  | .csrr => .csrr (csrField c.cmd).toNat
  | .csrw => .csrw (csrField c.cmd).toNat c.a

/-- R86 without its halt check, line by line and in its order. -/
def decode (c : Command) : Except DecodeError Instr :=
  match Opcode.ofBits (opField c.cmd) with
  | none => .error .unknownOpcode
  | some op =>
    if rsv1Field c.cmd ≠ 0#8 ∨ rsv0Field c.cmd ≠ 0#6 then .error .reservedField
    else if op = .mipsel ∧ modeField c.cmd = 3#2 then .error .reservedMode
    else if op ≠ .mipsel ∧ modeField c.cmd ≠ 0#2 then .error .modeNotZero
    else if isCsrOpcode (opField c.cmd) = false ∧ csrField c.cmd ≠ 0#8 then .error .csrNotZero
    else .ok (op.instr c)

/-- A row of the opcode table (R85). -/
structure OpcodeRow where
  mnemonic : String
  pattern : Word
  mask : Word
deriving DecidableEq, Repr

/-- The opcode map of R85: a word selects a row when `CMD & mask = match`. -/
def opcodeTable : List OpcodeRow :=
  [⟨"PTADDR", 0x00000001#32, 0xFFFFFFFF#32⟩,
   ⟨"MIPSEL.ANY", 0x00000002#32, 0xFFFFFFFF#32⟩,
   ⟨"MIPSEL.EVEN", 0x00000102#32, 0xFFFFFFFF#32⟩,
   ⟨"MIPSEL.ODD", 0x00000202#32, 0xFFFFFFFF#32⟩,
   ⟨"FXPACK", 0x00000003#32, 0xFFFFFFFF#32⟩,
   ⟨"FXUNPZ", 0x00000004#32, 0xFFFFFFFF#32⟩,
   ⟨"FXISINV", 0x00000005#32, 0xFFFFFFFF#32⟩,
   ⟨"IVPACK", 0x00000006#32, 0xFFFFFFFF#32⟩,
   ⟨"IVFLAGS", 0x00000007#32, 0xFFFFFFFF#32⟩,
   ⟨"IVID", 0x00000008#32, 0xFFFFFFFF#32⟩,
   ⟨"CSRR", 0x00000010#32, 0xFF00FFFF#32⟩,
   ⟨"CSRW", 0x00000011#32, 0xFF00FFFF#32⟩]

/-- The word selects the row (R85). -/
def OpcodeRow.selects (r : OpcodeRow) (cmd : Word) : Bool := cmd &&& r.mask == r.pattern

/-- The mnemonic of R85. -/
def Instr.mnemonic : Instr → String
  | .ptaddr _ _ _ => "PTADDR"
  | .mipselAny _ _ _ => "MIPSEL.ANY"
  | .mipselEven _ _ _ => "MIPSEL.EVEN"
  | .mipselOdd _ _ _ => "MIPSEL.ODD"
  | .fxpack _ _ => "FXPACK"
  | .fxunpz _ => "FXUNPZ"
  | .fxisinv _ => "FXISINV"
  | .ivpack _ _ => "IVPACK"
  | .ivflags _ => "IVFLAGS"
  | .ivid _ => "IVID"
  | .csrr _ => "CSRR"
  | .csrw _ _ => "CSRW"

/-- The command word with a CSR address in `CMD[23:16]` (R89, R185, R186). -/
def withCsrField (pattern : Word) (csr : Nat) : Word := pattern ||| (BitVec.ofNat 32 csr <<< 16)

/-- R89: the row's `match` with the CSR operand, the operands in order, an absent operand word zero. -/
def encode : Instr → Command
  | .ptaddr m x y => ⟨0x00000001#32, m, x, y⟩
  | .mipselAny f sb gb => ⟨0x00000002#32, f, sb, gb⟩
  | .mipselEven f sb gb => ⟨0x00000102#32, f, sb, gb⟩
  | .mipselOdd f sb gb => ⟨0x00000202#32, f, sb, gb⟩
  | .fxpack xy z => ⟨0x00000003#32, xy, z, 0#32⟩
  | .fxunpz z => ⟨0x00000004#32, z, 0#32, 0#32⟩
  | .fxisinv z => ⟨0x00000005#32, z, 0#32, 0#32⟩
  | .ivpack flags vsmId => ⟨0x00000006#32, flags, vsmId, 0#32⟩
  | .ivflags p => ⟨0x00000007#32, p, 0#32, 0#32⟩
  | .ivid p => ⟨0x00000008#32, p, 0#32, 0#32⟩
  | .csrr csr => ⟨withCsrField 0x00000010#32 csr, 0#32, 0#32, 0#32⟩
  | .csrw csr v => ⟨withCsrField 0x00000011#32 csr, v, 0#32, 0#32⟩

/-- The command whose bits are `w`, numbered as the opcode table numbers them: `CMD` is bits 31:0, then `A`, `B`, `C`
follow; bits at and above `nbits` are zero (log entry 17). -/
def commandOfBits (nbits w : Nat) : Command :=
  let v := w % 2 ^ nbits
  ⟨BitVec.ofNat 32 v, BitVec.ofNat 32 (v >>> 32), BitVec.ofNat 32 (v >>> 64), BitVec.ofNat 32 (v >>> 96)⟩

/-- What the decoder reads from a command given by its bits; none where it rejects. -/
def decodeTableWord (nbits w : Nat) : Option Instr :=
  match decode (commandOfBits nbits w) with
  | .ok i => some i
  | .error _ => none

end Sys2Proof
end

