-- ==== Sys2Proof/Machine/State.lean ====
section
/-! DEFINITION. What the machine is made of: causes, the response, the host's inputs, the control registers, the state and
its reset value (10_state.md, 60_exceptions.md R200, 30_encoding.md R84, 70_reset_and_hazards.md R230, R241). VSMAG has no
memory, no register file and no program counter (10_state.md R32, R33; 20_memory.md R60), so State holds none. -/

namespace Sys2Proof.Machine

/-- The causes of 60_exceptions.md R200, in the order of their codes 1 to 11. -/
inductive Cause where
  | illegal | ptMip | ptCoord | mipFootprint | fxSlice | fxPacked | ivFlags | ivId | csrAddr | csrRo | halted
deriving DecidableEq, Repr

/-- What the rule of one opcode produces: its result words and its cause set (R84, R201). A result word a rule does not
write is 0 (R84). -/
structure Effect where
  r0 : Word := 0#32
  r1 : Word := 0#32
  causes : List Cause := []
deriving DecidableEq, Repr

/-- The response to one command (R80, R84). -/
structure Response where
  r0 : Word
  r1 : Word
  st : Word
deriving DecidableEq, Repr

/-- What the host can do to the machine (70_reset_and_hazards.md R241). -/
inductive HostInput where
  /-- Issue a command. -/
  | command (c : Command)
  /-- Assert reset, between two commands (`none`) or while this command is in flight (R230). -/
  | reset (inFlight : Option Command)
deriving DecidableEq, Repr

/-- The control registers of the map of 10_state.md section 3. -/
inductive Csr where
  | pageSizeLog2 | pageSize | l0DimPagesLog2 | l0DimPages | maxMipLevels | virtualMaxRes | ptCapacity | invFlagBits
  | sliceBias | invalidPackedZ | invalidSlice
  | ptLevelOffset (m : Fin 8)
  | ctrl | errstat | halt
deriving DecidableEq, Repr

/-- The access codes of 10_state.md section 3. -/
inductive CsrAccess where
  | ro | rw | w1c
deriving DecidableEq, Repr

/-- The state of one VSMAG instance: the three fields of 10_state.md R31, and the two ends of its command port. -/
structure State where
  /-- `CTRL.FAILFAST` (R45). -/
  failfast : Bool
  /-- `ERRSTAT.CAUSE`, bits 10:1 of ERRSTAT (R46): bit `k` here is bit `k + 1` there. -/
  cause : BitVec 10
  /-- `HALT.HALTED` (R47). -/
  halted : Bool
  /-- What the host has yet to send, oldest first. The model's own field (log entry 1). -/
  inputs : List HostInput
  /-- The responses the host has received, oldest first (70 R242). The model's own field (log entry 2). -/
  responses : List Response
deriving DecidableEq, Repr

/-- Why a step could stop with a fault. There is no constructor: nothing traps (60_exceptions.md R212), every command
completes (70_reset_and_hazards.md R238) and no word brings the machine to a state that hangs (R241), so nobody raises a
fault (log entry 12). -/
inductive Fault where
deriving DecidableEq, Repr

/-- Why a step could be refused. -/
inductive Refusal where
  /-- Raised by an arm of `exec` for an instruction with no meaning yet. Safe: nothing can be proved of what the
  instruction does. No arm raises it in this model. -/
  | notModelled (mnemonic : String)
deriving DecidableEq, Repr

/-- The state right after reset: R49 and R230 for the three fields. Nothing has been issued and nothing received. -/
def State.reset : State :=
  { failfast := false, cause := 0#10, halted := false, inputs := [], responses := [] }

end Sys2Proof.Machine
end

