-- ==== Sys2Proof/Machine/Flags.lean ====
section
/-! DEFINITION. What VSMAG has instead of flags (10_state.md R34): the status code of a response, the sticky log and the
halt condition, each computed from a command's cause set (60_exceptions.md R200 to R206). -/

namespace Sys2Proof.Machine

/-- The code of a cause (R200). -/
def Cause.code : Cause → Nat
  | .illegal => 1
  | .ptMip => 2
  | .ptCoord => 3
  | .mipFootprint => 4
  | .fxSlice => 5
  | .fxPacked => 6
  | .ivFlags => 7
  | .ivId => 8
  | .csrAddr => 9
  | .csrRo => 10
  | .halted => 11

/-- Codes 1 to 10 are logged and halt under FAILFAST; `E_HALTED` is neither (R203, R206). -/
def Cause.isLogged (c : Cause) : Bool := decide (1 ≤ c.code ∧ c.code ≤ 10)

/-- The bit of `ERRSTAT.CAUSE` that a cause sets: bit `n` of ERRSTAT is bit `n - 1` here; none for `E_HALTED` (R203). -/
def Cause.logBit (c : Cause) : BitVec 10 :=
  if c.isLogged then BitVec.ofNat 10 (2 ^ (c.code - 1)) else 0#10

/-- The status code of a cause set: its lowest code, 0 when it is empty (R202). -/
def statusOf : List Cause → Word
  | [] => 0#32
  | c :: cs => BitVec.ofNat 32 (cs.foldl (fun n d => min n d.code) c.code)

/-- The log after a cause set: every logged cause sets its bit, no bit is cleared (R203). -/
def logCauses (causes : List Cause) (log : BitVec 10) : BitVec 10 :=
  causes.foldl (fun acc c => acc ||| c.logBit) log

/-- A cause set that halts the unit in debug mode: it holds a code in 1..10 (R206). -/
def haltsWhenDebug (causes : List Cause) : Bool := causes.any Cause.isLogged

end Sys2Proof.Machine
end

