-- ==== Sys2Proof/Machine/Geometry.lean ====
section
/-! DEFINITION. The fixed geometry of the page table (00_scope.md R5) and the index functions of 40_page_table.md
section 1, on natural numbers. -/

namespace Sys2Proof.Machine

/-- `PageSizeLog2` (R5). -/
def pageSizeLog2 : Nat := 7

/-- `PageSize` (R5). -/
def pageSize : Nat := 2 ^ pageSizeLog2

/-- `Level0DimPagesLog2` (R5). -/
def level0DimPagesLog2 : Nat := 7

/-- `Level0DimPages` (R5). -/
def level0DimPages : Nat := 2 ^ level0DimPagesLog2

/-- `MaxMipLevels` (R5). -/
def maxMipLevels : Nat := level0DimPagesLog2 + 1

/-- `VirtualMaxResolution` (R5). -/
def virtualMaxResolution : Nat := level0DimPages * pageSize

/-- `InvFlagBits` (R5). -/
def invFlagBits : Nat := 8

/-- `InvIdBits` (R5). -/
def invIdBits : Nat := 32 - invFlagBits

/-- `Dim(m)` of R110: pages per side of level `m`. -/
def dim (m : Nat) : Nat := level0DimPages >>> m

/-- `Count(m)` of R110: pages of level `m`. -/
def count (m : Nat) : Nat := dim m ^ 2

/-- `LevelOffset(m)` of R111: where the run of level `m` starts, the sum of the counts of the levels below it. -/
def levelOffset : Nat → Nat
  | 0 => 0
  | m + 1 => levelOffset m + count m

/-- `PageTableCapacity` (R5, R113). -/
def pageTableCapacity : Nat := levelOffset maxMipLevels

/-- A valid triple (R114). -/
def validTriple (m x y : Nat) : Bool := decide (m < maxMipLevels ∧ x < dim m ∧ y < dim m)

/-- `Index(m, x, y)` of R112, row-major within the run of its level. -/
def pageIndex (m x y : Nat) : Nat := levelOffset m + y * dim m + x

/-- The level of a slot (R117): how many levels end at or below it. -/
def slotLevel (i : Nat) : Nat := (List.range maxMipLevels).countP fun m => decide (levelOffset (m + 1) ≤ i)

/-- The inverse of `pageIndex` (R117), which no command computes: level, x and y of a slot. -/
def slotTriple (i : Nat) : Nat × Nat × Nat :=
  let m := slotLevel i
  (m, (i - levelOffset m) % dim m, (i - levelOffset m) / dim m)

end Sys2Proof.Machine
end

