-- ==== Sys2Proof/Machine/Binary32.lean ====
section
/-! DEFINITION. IEEE 754 binary32 as 00_scope.md R11 uses it: the values a word stands for, their order, and `fadd`. A
finite value is a sign and a magnitude counted in units of 2^-149, the least subnormal, so that every sum of two values is
an exact integer before it is rounded. The format is general knowledge (93_implementation_defined.md G1; log entry 10). -/

namespace Sys2Proof.Machine

/-- A binary32 value. All NaNs are one value (log entry 9). `finite neg mag` is `mag * 2^-149` with its sign, so both
zeros are there. -/
inductive F32 where
  | nan
  | inf (neg : Bool)
  | finite (neg : Bool) (mag : Nat)
deriving DecidableEq, Repr

/-- The biased exponent `w[30:23]` (R11). -/
def exponentField (w : Word) : Nat := (w.extractLsb' 23 8).toNat

/-- The fraction `w[22:0]` (R11). -/
def fractionField (w : Word) : Nat := (w.extractLsb' 0 23).toNat

/-- The value one, in units of 2^-149. -/
def oneUnits : Nat := 2 ^ 149

/-- Every finite magnitude is below this: 2^128 in units of 2^-149. -/
def overflowUnits : Nat := 2 ^ 128 * oneUnits

/-- `f32(w)` of R11. -/
def f32 (w : Word) : F32 :=
  let e := exponentField w
  let f := fractionField w
  if e = 255 then (if f = 0 then .inf w.msb else .nan)
  else if e = 0 then .finite w.msb f
  else .finite w.msb ((2 ^ 23 + f) * 2 ^ (e - 1))

/-- The integer a finite value is in units of 2^-149; 0 for the others, where it is not used. -/
def F32.units : F32 → Int
  | .finite true mag => -(mag : Int)
  | .finite false mag => (mag : Int)
  | .nan => 0
  | .inf _ => 0

/-- The order of the values. Nothing is at most or at least a NaN; both zeros are equal. -/
def F32.le : F32 → F32 → Bool
  | .nan, _ => false
  | _, .nan => false
  | .inf true, _ => true
  | _, .inf false => true
  | .finite n a, .finite m b => decide ((F32.finite n a).units ≤ (F32.finite m b).units)
  | .inf false, _ => false
  | _, .inf true => false

/-- Rounding of a magnitude to 24 significant bits, to nearest, ties to even. Below 2^24 every integer is exact, so
subnormals are kept. -/
def roundMag (n : Nat) : Nat :=
  if n < 2 ^ 24 then n
  else
    let sh := n.log2 - 23
    let q := n / 2 ^ sh
    let r := n % 2 ^ sh
    let half := 2 ^ (sh - 1)
    if half < r ∨ (r = half ∧ q % 2 = 1) then (q + 1) * 2 ^ sh else q * 2 ^ sh

/-- A rounded value with its sign; a magnitude that reaches 2^128 overflows to infinity. -/
def roundFinite (neg : Bool) (n : Nat) : F32 :=
  if overflowUnits ≤ roundMag n then .inf neg else .finite neg (roundMag n)

/-- The sum of two finite values from its exact integer value: an exact zero is -0 only when both operands are negative. -/
def addFinite (negA : Bool) (a : Nat) (negB : Bool) (b : Nat) : F32 :=
  let v := (F32.finite negA a).units + (F32.finite negB b).units
  if v = 0 then .finite (negA && negB) 0 else roundFinite (decide (v < 0)) v.natAbs

/-- `fadd(a, b)` of R11: binary32 addition, round to nearest, ties to even, no flushing. -/
def fadd : F32 → F32 → F32
  | .nan, _ => .nan
  | _, .nan => .nan
  | .inf s, .inf t => if s = t then .inf s else .nan
  | .inf s, .finite _ _ => .inf s
  | .finite _ _, .inf t => .inf t
  | .finite n a, .finite m b => addFinite n a m b

/-- The value is finite. -/
def F32.isFinite : F32 → Bool
  | .finite _ _ => true
  | .nan => false
  | .inf _ => false

/-- The value of an integer of at most 24 bits. -/
def F32.ofInteger (k : Int) : F32 := .finite (decide (k < 0)) (k.natAbs * oneUnits)

/-- The word of a value: sign, then exponent and fraction. For a magnitude that binary32 represents this is its encoding.
A NaN is written as the quiet NaN of 30_encoding.md R88. -/
def F32.toWord : F32 → Word
  | .nan => 0x7FC00000#32
  | .inf neg => if neg then 0xFF800000#32 else 0x7F800000#32
  | .finite neg mag =>
    let sh := mag.log2 - 23
    BitVec.ofNat 32 ((if neg then 2 ^ 31 else 0) + (sh * 2 ^ 23 + mag / 2 ^ sh))

/-- A magnitude that binary32 represents: at most 24 significant bits, below the overflow. -/
def representable (n : Nat) : Bool := decide (roundMag n = n ∧ n < overflowUnits)

/-- The valid footprints of 41_mip_select.md R132: positive, +inf included, no NaN. -/
def validFootprint (w : Word) : Bool :=
  !w.msb && decide (w ≠ 0#32) && !decide (exponentField w = 255 ∧ fractionField w ≠ 0)

/-- The pattern of `2^k`, for `k` in `[-149, 127]`. -/
def powerOfTwoWord (k : Int) : Word :=
  if k < -126 then BitVec.ofNat 32 (2 ^ (k + 149).toNat) else BitVec.ofNat 32 ((k + 127).toNat * 2 ^ 23)

end Sys2Proof.Machine
end

