-- ==== Sys2Proof/Machine/Operands.lean ====
section
/-! DEFINITION. The operand forms: the types R82 of 30_encoding.md gives operand words (with `f32` of Machine/Binary32.lean
for the binary32 ones), and the control register a CSR address names (10_state.md section 3, R48). -/

namespace Sys2Proof.Machine

/-- `uint(w)` of 00_scope.md R10. -/
def uint (w : Word) : Nat := w.toNat

/-- `sint(w)` of R10. -/
def sint (w : Word) : Int := w.toInt

/-- `zext_32(v)` of R10, for a value of fewer than 32 bits. -/
def zext (v : Nat) : Word := BitVec.ofNat 32 v

/-- The register at a CSR address; none where the address is unmapped (R48). -/
def csrAt (a : Nat) : Option Csr :=
  if a = 0x00 then some .pageSizeLog2
  else if a = 0x01 then some .pageSize
  else if a = 0x02 then some .l0DimPagesLog2
  else if a = 0x03 then some .l0DimPages
  else if a = 0x04 then some .maxMipLevels
  else if a = 0x05 then some .virtualMaxRes
  else if a = 0x06 then some .ptCapacity
  else if a = 0x07 then some .invFlagBits
  else if a = 0x08 then some .sliceBias
  else if a = 0x09 then some .invalidPackedZ
  else if a = 0x0A then some .invalidSlice
  else if h : 0x10 ≤ a ∧ a < 0x18 then some (.ptLevelOffset ⟨a - 0x10, by omega⟩)
  else if a = 0x20 then some .ctrl
  else if a = 0x21 then some .errstat
  else if a = 0x22 then some .halt
  else none

/-- The address of a register, the first column of the same map. -/
def csrAddress : Csr → Nat
  | .pageSizeLog2 => 0x00
  | .pageSize => 0x01
  | .l0DimPagesLog2 => 0x02
  | .l0DimPages => 0x03
  | .maxMipLevels => 0x04
  | .virtualMaxRes => 0x05
  | .ptCapacity => 0x06
  | .invFlagBits => 0x07
  | .sliceBias => 0x08
  | .invalidPackedZ => 0x09
  | .invalidSlice => 0x0A
  | .ptLevelOffset m => 0x10 + m.val
  | .ctrl => 0x20
  | .errstat => 0x21
  | .halt => 0x22

/-- How a register may be written (10_state.md section 3). -/
def csrAccess : Csr → CsrAccess
  | .ctrl => .rw
  | .errstat => .w1c
  | .halt => .w1c
  | .pageSizeLog2 => .ro
  | .pageSize => .ro
  | .l0DimPagesLog2 => .ro
  | .l0DimPages => .ro
  | .maxMipLevels => .ro
  | .virtualMaxRes => .ro
  | .ptCapacity => .ro
  | .invFlagBits => .ro
  | .sliceBias => .ro
  | .invalidPackedZ => .ro
  | .invalidSlice => .ro
  | .ptLevelOffset _ => .ro

end Sys2Proof.Machine
end

