-- ==== Sys2Proof/Config.lean ====
section
/-! DEFINITION. What the build of the hardware fixes and the spec leaves open (00_scope.md R6): three free constants, none
with a value, and the record of parameters that the rules take as an argument. The constants are raw material:
Machine/Params.lean turns them into parameters that meet R6 and R131 whatever the constants are, and every legal choice
of parameters comes from some constants (log entries 6 to 8). -/

namespace Sys2Proof

/-- `SLICE_BIAS` of R6 as its 31 bits, so that it lies in `[0, 2^31 - 1]`. Free: log entry 6. -/
opaque Config.sliceBiasBits : BitVec 31

/-- What `INVALID_PACKED_Z` of R6 is made from: how far below -1 it lies, reduced into the range R6 leaves. Free: log entry 7. -/
opaque Config.sentinelDepth : Nat

/-- What `LOG2` of R6 and R131 is made from, on binary32 patterns. Free: log entry 8. -/
opaque Config.log2Raw : Word → Word

/-- The build-time parameters of R6. `log2` maps the pattern of a positive binary32 value to the pattern of its result. -/
structure Params where
  sliceBias : Int
  invalidPackedZ : Int
  log2 : Word → Word

end Sys2Proof
end

