-- ==== Sys2Proof/Machine/Params.lean ====
section
/-! DEFINITION. The build-time parameters (00_scope.md R6, 41_mip_select.md R131, 42_froxel.md R151, R152): what makes a
choice of them legal, and the parameters of this machine, made from the free constants of Config so that they are legal
whatever those constants are. -/

namespace Sys2Proof.Machine

/-- `INVALID_SLICE = INVALID_PACKED_Z - SLICE_BIAS` (R6). -/
def invalidSlice (p : Params) : Int := p.invalidPackedZ - p.sliceBias

/-- `ZMIN = -SLICE_BIAS` (R151). -/
def zMin (p : Params) : Int := -p.sliceBias

/-- `ZMAX = 2^31 - 1 - SLICE_BIAS` (R151). -/
def zMax (p : Params) : Int := 2 ^ 31 - 1 - p.sliceBias

/-- P1 to P4 of R131, the properties a model may assume of `LOG2`. -/
structure Log2Legal (log2 : Word → Word) : Prop where
  /-- P1: finite on every positive finite value. -/
  total : ∀ x, validFootprint x = true → x ≠ 0x7F800000#32 → (f32 (log2 x)).isFinite = true
  /-- P2: exact on powers of two. -/
  exact : ∀ k : Int, -149 ≤ k → k ≤ 127 → f32 (log2 (powerOfTwoWord k)) = F32.ofInteger k
  /-- P3: monotone. -/
  monotone : ∀ x y, validFootprint x = true → validFootprint y = true → (f32 x).le (f32 y) = true →
    (f32 (log2 x)).le (f32 (log2 y)) = true
  /-- P4: infinity. -/
  infinity : log2 0x7F800000#32 = 0x7F800000#32

/-- The constraints of R6. -/
structure ParamsLegal (p : Params) : Prop where
  sliceBias_nonneg : 0 ≤ p.sliceBias
  sliceBias_le : p.sliceBias ≤ 2 ^ 31 - 1
  invalidPackedZ_ge : -2 ^ 31 + p.sliceBias ≤ p.invalidPackedZ
  invalidPackedZ_neg : p.invalidPackedZ ≤ -1
  log2_legal : Log2Legal p.log2

/-- `floor(log2 x)` of a positive finite value, from its fields. -/
def floorLog2 (w : Word) : Int :=
  if exponentField w = 0 then ((fractionField w).log2 : Int) - 149 else (exponentField w : Int) - 127

/-- The pattern of the greatest power of two that is at most a positive finite value. -/
def floorPower (w : Word) : Nat :=
  if exponentField w = 0 then 2 ^ (fractionField w).log2 else exponentField w * 2 ^ 23

/-- The word of a small integer as a binary32 value. -/
def integerWord (k : Int) : Word := (F32.ofInteger k).toWord

/-- The greatest `LOG2` of a footprint from `2^k` up to the next power of two: `k + 1` by P2 and P3; from `2^127` on there
is no next power, and P1 leaves every finite value. -/
def octaveTop (k : Int) : Word := if k < 127 then integerWord (k + 1) else 0x7F7FFFFF#32

/-- A free word moved to where P1 to P3 put `LOG2` from `2^k` up to the next power of two. A word there is kept. -/
def clampToOctave (k : Int) (v : Word) : Word :=
  if (F32.ofInteger k).le (f32 v) = false then integerWord k
  else if (f32 v).le (f32 (octaveTop k)) = true then v
  else octaveTop k

/-- The running maximum, over the patterns from `2^k` on, of the free words moved into their octave: it starts at exactly
`k` (P2) and never falls (P3). Where the free words already rise it changes none of them. -/
def octaveLog2 (raw : Word → Word) (k : Int) (base : Nat) : Nat → Word
  | 0 => integerWord k
  | n + 1 =>
    let before := octaveLog2 raw k base n
    let v := clampToOctave k (raw (BitVec.ofNat 32 (base + (n + 1))))
    if (f32 before).le (f32 v) = true then v else before

/-- `LOG2` made from a free function (log entry 8). Outside the positive values R131 does not define it and no rule
reads it. -/
def log2From (raw : Word → Word) (w : Word) : Word :=
  if validFootprint w = false then raw w
  else if w = 0x7F800000#32 then 0x7F800000#32
  else octaveLog2 raw (floorLog2 w) (floorPower w) (w.toNat - floorPower w)

/-- Legal parameters from free constants: the bias as it is, the sentinel somewhere in the range R6 leaves it. -/
def paramsFrom (bias : BitVec 31) (depth : Nat) (raw : Word → Word) : Params :=
  { sliceBias := bias.toNat
    invalidPackedZ := -1 - ((depth % (2 ^ 31 - bias.toNat) : Nat) : Int)
    log2 := log2From raw }

/-- The parameters of this machine. -/
def params : Params := paramsFrom Config.sliceBiasBits Config.sentinelDepth Config.log2Raw

end Sys2Proof.Machine
end

