-- ==== Sys2Proof/Machine/Ops.lean ====
section
/-! DEFINITION. The operations the meanings share: the end-of-command steps, which are this hardware's exception entry
(60_exceptions.md R202, R203, R206, R212), the halt check of 30_encoding.md R86, the refusals of illegal and halted
commands, leaving the halt, reset, and the accessors of the control registers. -/

namespace Sys2Proof.Machine

/-- The end-of-command steps R202, R203 and R206, in that order. `debug` is `CTRL.FAILFAST` when the command began. -/
def endOfCommand (debug : Bool) (e : Effect) (s : State) : State :=
  { s with
    cause := logCauses e.causes s.cause
    halted := s.halted || (debug && haltsWhenDebug e.causes)
    responses := s.responses ++ [⟨e.r0, e.r1, statusOf e.causes⟩] }

/-- A command that ran from `before` and left `after`, with its end-of-command steps. -/
def complete (before : State) (e : Effect) (after : State) : Host.Outcome State Fault Refusal :=
  .next (endOfCommand before.failfast e after)

/-- What a command refused in the halted state produces (R207). -/
def haltedRefusal : Effect := { causes := [.halted] }

/-- What an illegal command produces (30_encoding.md R86). -/
def illegalRefusal : Effect := { causes := [.illegal] }

/-- A command of a function unit: refused while halted (R86, R207), else its rule and the end-of-command steps. -/
def runUnit (e : Effect) (s : State) : Host.Outcome State Fault Refusal :=
  if s.halted then complete s haltedRefusal s else complete s e s

/-- A command that does not decode: the halt check comes first and spares the two CSR opcodes, then `E_ILLEGAL` (R86).
DESIGN CHOICE: while halted, an illegal word with a CSR opcode is `E_ILLEGAL` and logged, as R86 and 60 R207 say; the note of
95_test_vectors.md section 2.9 would refuse `0x80000010` with status 11 (log entry 22). -/
def refuseCommand (cmd : Word) (s : State) : Host.Outcome State Fault Refusal :=
  if s.halted && !isCsrOpcode (opField cmd) then complete s haltedRefusal s else complete s illegalRefusal s

/-- `CTRL` as software reads it (10_state.md R45): reserved bits 0. -/
def ctrlWord (s : State) : Word := if s.failfast then 1#32 else 0#32

/-- `ERRSTAT` as software reads it (R46): `CAUSE` at bits 10:1, reserved bits 0. -/
def errstatWord (s : State) : Word := s.cause.setWidth 32 <<< 1

/-- `HALT` as software reads it (R47): reserved bits 0. -/
def haltWord (s : State) : Word := if s.halted then 1#32 else 0#32

/-- `csr[a]` (R36 to R47, R50). -/
def readCsr (p : Params) (r : Csr) (s : State) : Word :=
  match r with
  | .pageSizeLog2 => zext pageSizeLog2
  | .pageSize => zext pageSize
  | .l0DimPagesLog2 => zext level0DimPagesLog2
  | .l0DimPages => zext level0DimPages
  | .maxMipLevels => zext maxMipLevels
  | .virtualMaxRes => zext virtualMaxResolution
  | .ptCapacity => zext pageTableCapacity
  | .invFlagBits => zext invFlagBits
  | .sliceBias => word p.sliceBias
  | .invalidPackedZ => word p.invalidPackedZ
  | .invalidSlice => word (invalidSlice p)
  | .ptLevelOffset m => zext (levelOffset m.val)
  | .ctrl => ctrlWord s
  | .errstat => errstatWord s
  | .halt => haltWord s

/-- `FAILFAST <- value[0]` (R45, R186). -/
def writeCtrl (value : Word) (s : State) : State := { s with failfast := value.getLsbD 0 }

/-- `ERRSTAT <- ERRSTAT & ~(value & 0x7FE)` (R46, R186). -/
def writeErrstat (value : Word) (s : State) : State :=
  { s with cause := (errstatWord s &&& ~~~(value &&& 0x7FE#32)).extractLsb' 1 10 }

/-- `HALTED <- HALTED & ~value[0]` (R47, R186): the way out of the halt that software has (60_exceptions.md R208). -/
def writeHalt (value : Word) (s : State) : State := { s with halted := s.halted && !value.getLsbD 0 }

/-- A write of a control register; a read-only register keeps its value (R186). -/
def writeCsr (r : Csr) (value : Word) (s : State) : State :=
  match r with
  | .ctrl => writeCtrl value s
  | .errstat => writeErrstat value s
  | .halt => writeHalt value s
  | .pageSizeLog2 => s
  | .pageSize => s
  | .l0DimPagesLog2 => s
  | .l0DimPages => s
  | .maxMipLevels => s
  | .virtualMaxRes => s
  | .ptCapacity => s
  | .invFlagBits => s
  | .sliceBias => s
  | .invalidPackedZ => s
  | .invalidSlice => s
  | .ptLevelOffset _ => s

/-- Reset of a running unit (70_reset_and_hazards.md R230): the CTL state takes its reset value; a command in flight has
left no trace, and the responses the host already received stay received. -/
def resetUnit (s : State) : State := { s with failfast := false, cause := 0#10, halted := false }

end Sys2Proof.Machine
end

