-- ==== Sys2Proof/Machine/Control.lean ====
section
/-! DEFINITION. The control unit: CSRR and CSRW (44_csr.md R185, R186). Both run while halted (30_encoding.md R86). -/

namespace Sys2Proof.Machine

/-- The pseudocode of R185. -/
def csrrRule (p : Params) (a : Nat) (s : State) : Effect :=
  match csrAt a with
  | none => { causes := [.csrAddr] }
  | some r => { r0 := readCsr p r s }

/-- The result and the causes of R186. -/
def csrwRule (p : Params) (a : Nat) (s : State) : Effect :=
  match csrAt a with
  | none => { causes := [.csrAddr] }
  | some r =>
    if csrAccess r = .ro then { r0 := readCsr p r s, causes := [.csrRo] } else { r0 := readCsr p r s }

/-- The write of R186, before the end-of-command steps: none at an unmapped address. -/
def csrwWrite (a : Nat) (value : Word) (s : State) : State :=
  match csrAt a with
  | none => s
  | some r => writeCsr r value s

/-- CSRR. -/
def execCsrr (csr : Nat) (s : State) : Host.Outcome State Fault Refusal :=
  complete s (csrrRule params csr s) s

/-- CSRW. -/
def execCsrw (csr : Nat) (value : Word) (s : State) : Host.Outcome State Fault Refusal :=
  complete s (csrwRule params csr s) (csrwWrite csr value s)

end Sys2Proof.Machine
end

