-- ==== Sys2Proof/Machine/Froxel.lean ====
section
/-! DEFINITION. The froxel descriptor codec: FXPACK, FXUNPZ and FXISINV (42_froxel.md R155 to R157). -/

namespace Sys2Proof.Machine

/-- The pseudocode of R155. -/
def fxpackRule (p : Params) (xyTile zSlice : Word) : Effect :=
  let z := sint zSlice
  if z = invalidSlice p then { r0 := xyTile, r1 := word p.invalidPackedZ }
  else if zMin p ≤ z ∧ z ≤ zMax p then { r0 := xyTile, r1 := word (z + p.sliceBias) }
  else if z < zMin p then { r0 := xyTile, r1 := word 0, causes := [.fxSlice] }
  else { r0 := xyTile, r1 := word (2 ^ 31 - 1), causes := [.fxSlice] }

/-- The pseudocode of R156. -/
def fxunpzRule (p : Params) (packed : Word) : Effect :=
  let z := sint packed
  if z = p.invalidPackedZ then { r0 := word (invalidSlice p) }
  else if 0 ≤ z then { r0 := word (z - p.sliceBias) }
  else { r0 := word (max (z - p.sliceBias) (-2 ^ 31)), causes := [.fxPacked] }

/-- The pseudocode of R157. -/
def fxisinvRule (p : Params) (packed : Word) : Effect :=
  { r0 := if sint packed = p.invalidPackedZ then 1#32 else 0#32 }

/-- FXPACK. -/
def execFxpack (xyTile zSlice : Word) (s : State) : Host.Outcome State Fault Refusal :=
  runUnit (fxpackRule params xyTile zSlice) s

/-- FXUNPZ. -/
def execFxunpz (packed : Word) (s : State) : Host.Outcome State Fault Refusal :=
  runUnit (fxunpzRule params packed) s

/-- FXISINV. -/
def execFxisinv (packed : Word) (s : State) : Host.Outcome State Fault Refusal :=
  runUnit (fxisinvRule params packed) s

end Sys2Proof.Machine
end

