-- ==== Sys2Proof/Machine/Invalidation.lean ====
section
/-! DEFINITION. The invalidation-payload codec: IVPACK, IVFLAGS and IVID (43_invalidation.md R172 to R174). The flag bits
have no meaning here (R171). -/

namespace Sys2Proof.Machine

/-- The pseudocode of R172. The shift by 8 is the named split `InvFlagBits` (R170). -/
def ivpackRule (flags vsmId : Word) : Effect :=
  { r0 := ((vsmId &&& 0xFFFFFF#32) <<< invFlagBits) ||| (flags &&& 0xFF#32)
    causes := (if 0xFF < uint flags then [.ivFlags] else []) ++ (if 0xFFFFFF < uint vsmId then [.ivId] else []) }

/-- The pseudocode of R173. -/
def ivflagsRule (payload : Word) : Effect := { r0 := payload &&& 0x000000FF#32 }

/-- The pseudocode of R174: a logical shift. -/
def ividRule (payload : Word) : Effect := { r0 := payload >>> invFlagBits }

/-- IVPACK. -/
def execIvpack (flags vsmId : Word) (s : State) : Host.Outcome State Fault Refusal :=
  runUnit (ivpackRule flags vsmId) s

/-- IVFLAGS. -/
def execIvflags (payload : Word) (s : State) : Host.Outcome State Fault Refusal :=
  runUnit (ivflagsRule payload) s

/-- IVID. -/
def execIvid (payload : Word) (s : State) : Host.Outcome State Fault Refusal :=
  runUnit (ividRule payload) s

end Sys2Proof.Machine
end

