-- ==== Sys2Proof/Machine/MipSelect.lean ====
section
/-! DEFINITION. The mip-level selector: MIPSEL.ANY, MIPSEL.EVEN and MIPSEL.ODD (41_mip_select.md R133 to R140). -/

namespace Sys2Proof.Machine

/-- `raw` of R133: the additions are binary32, left to right. -/
def rawLevel (p : Params) (footprint shadowBias globalBias : Word) : F32 :=
  fadd (fadd (f32 (p.log2 footprint)) (f32 shadowBias)) (f32 globalBias)

/-- `u` of R134: `min(floor(max(raw, 0)), 7)` on the value `raw` denotes, a NaN counting as 0. -/
def clampLevel (raw : F32) : Nat :=
  match raw with
  | .nan => 0
  | .inf true => 0
  | .inf false => 7
  | .finite true _ => 0
  | .finite false mag => if 7 * oneUnits ≤ mag then 7 else mag / oneUnits

/-- The parity override of R135. -/
def parity (mode : MipMode) (u : Word) : Word :=
  match mode with
  | .any => u
  | .evenOnly => u &&& ~~~1#32
  | .oddOnly => u ||| 1#32

/-- `SelectMipLevel` of R139, with the release result of R140. -/
def mipselRule (p : Params) (mode : MipMode) (footprint shadowBias globalBias : Word) : Effect :=
  if validFootprint footprint then
    { r0 := parity mode (zext (clampLevel (rawLevel p footprint shadowBias globalBias))) }
  else
    { r0 := parity mode 0#32, causes := [.mipFootprint] }

/-- MIPSEL.ANY (R136). -/
def execMipselAny (footprint shadowBias globalBias : Word) (s : State) : Host.Outcome State Fault Refusal :=
  runUnit (mipselRule params .any footprint shadowBias globalBias) s

/-- MIPSEL.EVEN (R137). -/
def execMipselEven (footprint shadowBias globalBias : Word) (s : State) : Host.Outcome State Fault Refusal :=
  runUnit (mipselRule params .evenOnly footprint shadowBias globalBias) s

/-- MIPSEL.ODD (R138). -/
def execMipselOdd (footprint shadowBias globalBias : Word) (s : State) : Host.Outcome State Fault Refusal :=
  runUnit (mipselRule params .oddOnly footprint shadowBias globalBias) s

end Sys2Proof.Machine
end

