-- ==== Sys2Proof/Machine/PageTable.lean ====
section
/-! DEFINITION. The page-table address generator: PTADDR (40_page_table.md R115). -/

namespace Sys2Proof.Machine

/-- The pseudocode of R115. -/
def ptaddrRule (mip pageX pageY : Word) : Effect :=
  let m := uint mip
  let x := uint pageX
  let y := uint pageY
  let m' := min m 7
  let d := level0DimPages >>> m'
  let x' := min x (d - 1)
  let y' := min y (d - 1)
  { r0 := zext (levelOffset m' + y' * d + x')
    causes := (if 7 < m then [.ptMip] else []) ++ (if d ≤ x ∨ d ≤ y then [.ptCoord] else []) }

/-- PTADDR. -/
def execPtaddr (mip x y : Word) (s : State) : Host.Outcome State Fault Refusal :=
  runUnit (ptaddrRule mip x y) s

end Sys2Proof.Machine
end

