-- ==== Sys2Proof/Machine/Dispatch.lean ====
section
/-! DEFINITION. One arm per instruction: what the machine does with it. -/

namespace Sys2Proof.Machine

def exec (i : Instr) (s : State) : Host.Outcome State Fault Refusal :=
  match i with
  | .ptaddr mip x y => Sys2Proof.Machine.execPtaddr mip x y s
  | .mipselAny footprint shadowBias globalBias => Sys2Proof.Machine.execMipselAny footprint shadowBias globalBias s
  | .mipselEven footprint shadowBias globalBias => Sys2Proof.Machine.execMipselEven footprint shadowBias globalBias s
  | .mipselOdd footprint shadowBias globalBias => Sys2Proof.Machine.execMipselOdd footprint shadowBias globalBias s
  | .fxpack xyTile zSlice => Sys2Proof.Machine.execFxpack xyTile zSlice s
  | .fxunpz z => Sys2Proof.Machine.execFxunpz z s
  | .fxisinv z => Sys2Proof.Machine.execFxisinv z s
  | .ivpack flags vsmId => Sys2Proof.Machine.execIvpack flags vsmId s
  | .ivflags payload => Sys2Proof.Machine.execIvflags payload s
  | .ivid payload => Sys2Proof.Machine.execIvid payload s
  | .csrr csr => Sys2Proof.Machine.execCsrr csr s
  | .csrw csr value => Sys2Proof.Machine.execCsrw csr value s

end Sys2Proof.Machine
end

