-- ==== Sys2Proof/Machine/Step.lean ====
section
/-! DEFINITION. One step of the machine: it takes the next input of the host (10_state.md R30, 70_reset_and_hazards.md
R236). The order of the halt check and the illegal checks is that of 30_encoding.md R86: the meanings and `refuseCommand`
make the halt check. -/

namespace Sys2Proof.Machine

/-- One command from the port, in a state that has already taken it from the inputs (R86). -/
def runCommand (c : Command) (s : State) : Host.Outcome State Fault Refusal :=
  match decode c with
  | .ok i => exec i s
  | .error _ => refuseCommand c.cmd s

/-- One step. With no input the unit is idle and stays as it is (60_exceptions.md R219; log entry 3). -/
def step (s : State) : Host.Outcome State Fault Refusal :=
  match s.inputs with
  | [] => .next s
  | .command c :: rest => runCommand c { s with inputs := rest }
  | .reset _ :: rest => .next (resetUnit { s with inputs := rest })

/-- The host sends this command next (log entry 5). -/
def State.withFetchWord (s : State) (nbits w : Nat) : State :=
  { s with inputs := .command (commandOfBits nbits w) :: s.inputs }

end Sys2Proof.Machine
end

