-- ==== Sys2Proof/Machine/Assembler.lean ====
section
/-! DEFINITION. The assembler of 30_encoding.md section 4 on parsed lines: operands, pseudo-instructions (R90) and the
command a line assembles to (R88, R89). Machine/AsmText.lean reads the text. This is the host's tool: no step uses it. -/

namespace Sys2Proof.Machine

/-- A result word of an earlier line, `.R0` or `.R1` (R88). -/
inductive ResultWord where
  | r0 | r1
deriving DecidableEq, Repr

/-- A float operand of R88. `decimal neg digits places` is `digits / 10^places` with its sign. -/
inductive FloatLiteral where
  | decimal (neg : Bool) (digits places : Nat)
  | posInf | negInf | nan | negZero
deriving DecidableEq, Repr

/-- An operand of R88. -/
inductive AsmOperand where
  | int (v : Int)
  | float (x : FloatLiteral)
  | result (name : String) (part : ResultWord)
  | csrName (r : Csr)
  | csrRaw (v : Int)
deriving DecidableEq, Repr

/-- The mnemonics of R88, then the pseudo-instructions of R90. -/
inductive AsmMnemonic where
  | ptaddr | mipselAny | mipselEven | mipselOdd | fxpack | fxunpz | fxisinv | ivpack | ivflags | ivid | csrr | csrw
  | mipsel | fxinval | ptlvl | errclr | resume | debug | release
deriving DecidableEq, Repr

/-- One line: the name its response is bound to, the mnemonic, the operands (R88). -/
structure AsmLine where
  name : Option String
  mnemonic : AsmMnemonic
  operands : List AsmOperand
deriving DecidableEq, Repr

/-- Why a line does not assemble or a program does not go on. The first three are R89's; the others are a line outside
the grammar of R88 (log entries 15 and 16). -/
inductive AsmError where
  | intOutOfRange | floatNotExact | csrOutOfRange
  | unknownName | tooManyOperands | csrExpected | csrNotExpected | badPseudo
  | badText | machineStopped
deriving DecidableEq, Repr

/-- The results the host has, by name, latest first. -/
abbrev HostNames := List (String × Response)

/-- The response bound to a name (R89). DESIGN CHOICE: where several earlier lines bind the name, the latest (log entry 21). -/
def findName (name : String) : HostNames → Option Response
  | [] => none
  | (n, r) :: rest => if n = name then some r else findName name rest

/-- The word of a float operand; an inexact one is an assembly error (R88, R89). -/
def floatWord : FloatLiteral → Except AsmError Word
  | .posInf => .ok (F32.inf false).toWord
  | .negInf => .ok (F32.inf true).toWord
  | .nan => .ok F32.nan.toWord
  | .negZero => .ok (F32.finite true 0).toWord
  | .decimal neg digits places =>
    if digits * oneUnits % 10 ^ places = 0 ∧ representable (digits * oneUnits / 10 ^ places) = true then
      .ok (F32.finite neg (digits * oneUnits / 10 ^ places)).toWord
    else .error .floatNotExact

/-- The word of a data operand (R88, R89). -/
def dataWord (names : HostNames) : AsmOperand → Except AsmError Word
  | .int v => if -2 ^ 31 ≤ v ∧ v ≤ 2 ^ 32 - 1 then .ok (word v) else .error .intOutOfRange
  | .float x => floatWord x
  | .result name part =>
    match findName name names with
    | none => .error .unknownName
    | some r => .ok (match part with | .r0 => r.r0 | .r1 => r.r1)
  | .csrName _ => .error .csrNotExpected
  | .csrRaw _ => .error .csrNotExpected

/-- The address of a CSR operand (R88, R89). -/
def csrNumber : AsmOperand → Except AsmError Nat
  | .csrName r => .ok (csrAddress r)
  | .csrRaw v => if 0 ≤ v ∧ v ≤ 255 then .ok v.toNat else .error .csrOutOfRange
  | .int _ => .error .csrExpected
  | .float _ => .error .csrExpected
  | .result _ _ => .error .csrExpected

/-- The words of the data operands, in order. -/
def dataWords (names : HostNames) : List AsmOperand → Except AsmError (List Word)
  | [] => .ok []
  | o :: os =>
    match dataWord names o with
    | .error e => .error e
    | .ok w =>
      match dataWords names os with
      | .error e => .error e
      | .ok ws => .ok (w :: ws)

/-- Data operands that fill at most `most` words in order; an absent one is 0 (R89). -/
def operandWords (names : HostNames) (most : Nat) (os : List AsmOperand) : Except AsmError (Word × Word × Word) :=
  if most < os.length then .error .tooManyOperands
  else
    match dataWords names os with
    | .error e => .error e
    | .ok ws => .ok (ws.getD 0 0#32, ws.getD 1 0#32, ws.getD 2 0#32)

/-- R90: a pseudo-instruction as the line it stands for; any other line as it is. -/
def expandPseudo (p : Params) (l : AsmLine) : Except AsmError AsmLine :=
  match l.mnemonic, l.operands with
  | .mipsel, os => .ok { l with mnemonic := .mipselAny, operands := os }
  | .fxinval, [xy] => .ok { l with mnemonic := .fxpack, operands := [xy, .int (invalidSlice p)] }
  | .ptlvl, [.int m] =>
    if 0 ≤ m ∧ m ≤ 7 then .ok { l with mnemonic := .csrr, operands := [.csrRaw (0x10 + m)] } else .error .badPseudo
  | .errclr, [] => .ok { l with mnemonic := .csrw, operands := [.csrName .errstat, .int 0x7FE] }
  | .resume, [] => .ok { l with mnemonic := .csrw, operands := [.csrName .halt, .int 1] }
  | .debug, [] => .ok { l with mnemonic := .csrw, operands := [.csrName .ctrl, .int 1] }
  | .release, [] => .ok { l with mnemonic := .csrw, operands := [.csrName .ctrl, .int 0] }
  | .fxinval, _ => .error .badPseudo
  | .ptlvl, _ => .error .badPseudo
  | .errclr, _ => .error .badPseudo
  | .resume, _ => .error .badPseudo
  | .debug, _ => .error .badPseudo
  | .release, _ => .error .badPseudo
  | .ptaddr, _ => .ok l
  | .mipselAny, _ => .ok l
  | .mipselEven, _ => .ok l
  | .mipselOdd, _ => .ok l
  | .fxpack, _ => .ok l
  | .fxunpz, _ => .ok l
  | .fxisinv, _ => .ok l
  | .ivpack, _ => .ok l
  | .ivflags, _ => .ok l
  | .ivid, _ => .ok l
  | .csrr, _ => .ok l
  | .csrw, _ => .ok l

/-- A line of a function unit: at most `most` data operands, filling the operand words in order. -/
def assembleData (names : HostNames) (most : Nat) (os : List AsmOperand) (make : Word → Word → Word → Instr) :
    Except AsmError Instr :=
  match operandWords names most os with
  | .error e => .error e
  | .ok (a, b, c) => .ok (make a b c)

/-- A CSRR or CSRW line: the CSR operand first, then at most `most` data operands. -/
def assembleCsr (names : HostNames) (most : Nat) (os : List AsmOperand) (make : Nat → Word → Instr) :
    Except AsmError Instr :=
  match os with
  | [] => .error .csrExpected
  | o :: rest =>
    match csrNumber o with
    | .error e => .error e
    | .ok a =>
      match operandWords names most rest with
      | .error e => .error e
      | .ok (v, _, _) => .ok (make a v)

/-- A line without pseudo-instructions, assembled (the operand table of R88). -/
def assembleCore (names : HostNames) (l : AsmLine) : Except AsmError Instr :=
  match l.mnemonic with
  | .ptaddr => assembleData names 3 l.operands fun a b c => .ptaddr a b c
  | .mipselAny => assembleData names 3 l.operands fun a b c => .mipselAny a b c
  | .mipselEven => assembleData names 3 l.operands fun a b c => .mipselEven a b c
  | .mipselOdd => assembleData names 3 l.operands fun a b c => .mipselOdd a b c
  | .fxpack => assembleData names 2 l.operands fun a b _ => .fxpack a b
  | .fxunpz => assembleData names 1 l.operands fun a _ _ => .fxunpz a
  | .fxisinv => assembleData names 1 l.operands fun a _ _ => .fxisinv a
  | .ivpack => assembleData names 2 l.operands fun a b _ => .ivpack a b
  | .ivflags => assembleData names 1 l.operands fun a _ _ => .ivflags a
  | .ivid => assembleData names 1 l.operands fun a _ _ => .ivid a
  | .csrr => assembleCsr names 0 l.operands fun a _ => .csrr a
  | .csrw => assembleCsr names 1 l.operands fun a v => .csrw a v
  | .mipsel => .error .badPseudo
  | .fxinval => .error .badPseudo
  | .ptlvl => .error .badPseudo
  | .errclr => .error .badPseudo
  | .resume => .error .badPseudo
  | .debug => .error .badPseudo
  | .release => .error .badPseudo

/-- The instruction of a line, given the results the host has (R89, R90). -/
def assembleInstr (p : Params) (names : HostNames) (l : AsmLine) : Except AsmError Instr :=
  match expandPseudo p l with
  | .error e => .error e
  | .ok l' => assembleCore names l'

/-- The command of a line (R89). -/
def assemble (p : Params) (names : HostNames) (l : AsmLine) : Except AsmError Command :=
  match assembleInstr p names l with
  | .error e => .error e
  | .ok i => .ok (encode i)

end Sys2Proof.Machine
end

