-- ==== Sys2Proof/Machine/Image.lean ====
section
/-! DEFINITION. The memory images of the descriptors, which the host lays out from results (20_memory.md R62 to R66).
VSMAG reads and writes none of these bytes (R60). An image is the list of its bytes, offset 0 first; placed at a base
address it is a list of cells. -/

namespace Sys2Proof.Machine

/-- Byte `k` of a word: `w[8k+7:8k]` (R62). -/
def byteOf (w : Word) (k : Nat) : Byte := w.extractLsb' (8 * k) 8

/-- The four bytes of a word, little-endian (R62). -/
def wordImage (w : Word) : List Byte := [byteOf w 0, byteOf w 1, byteOf w 2, byteOf w 3]

/-- A PackedFroxel: `XY` at offset 0, `Z` at offset 4, no padding (R63). -/
def froxelImage (xy z : Word) : List Byte := wordImage xy ++ wordImage z

/-- An InvalidationPayload (R64). -/
def payloadImage (payload : Word) : List Byte := wordImage payload

/-- The cells of an image whose first byte lies at `base`. -/
def placeImage (base : Nat) : List Byte → List Host.Cell
  | [] => []
  | b :: bs => (base, b) :: placeImage (base + 1) bs

/-- What a consumer that reads one byte at an offset sees (R65); zero past the end of the image, where R65 says nothing. -/
def readByte (image : List Byte) (offset : Nat) : Byte := image.getD offset 0#8

/-- What a consumer that reads 16 bits at an offset sees, little-endian (R62, R65). -/
def readHalf (image : List Byte) (offset : Nat) : BitVec 16 := readByte image (offset + 1) ++ readByte image offset

/-- What a consumer that reads a whole word at an offset sees, little-endian (R62). -/
def readWord (image : List Byte) (offset : Nat) : Word := readHalf image (offset + 2) ++ readHalf image offset

/-- R66: each 32-bit field of an image sits at a multiple of 4. VSMAG cannot detect that it does not. -/
def imageAligned (base : Nat) : Bool := base % 4 == 0

end Sys2Proof.Machine
end

