-- ==== Sys2Proof/Machine/Instances.lean ====
section
/-! DEFINITION. Several VSMAG instances of one build (70_reset_and_hazards.md R240): they share no state, have the same
parameters, and one of them steps at a time. Which one is an argument (log entry 14). -/

namespace Sys2Proof.Machine

/-- Instance `k` of a system steps; a number that names no instance changes nothing. -/
def stepInstance (k : Nat) (system : List State) : Host.Outcome (List State) Fault Refusal :=
  match system[k]? with
  | none => .next system
  | some s =>
    match step s with
    | .next s' => .next (system.set k s')
    | .fault f => .fault f
    | .refused r => .refused r

end Sys2Proof.Machine
end

