-- ==== Sys2Proof/Safety.lean ====
section
/-! DEFINITION. What claims call a good state and a good run. A violation does not stop the machine (60_exceptions.md
R201, R204), so a claim about a correct host takes `ST = 0` as its premise (93_implementation_defined.md). -/

namespace Sys2Proof.Machine

/-- A response has a status code of R200 (0 to 11, so `ST[31:8]` is 0, R84), and a refused command returned zeros (R84). -/
def Response.wellFormed (r : Response) : Bool :=
  decide (r.st.toNat ≤ 11) && (!(r.st == 1#32 || r.st == 11#32) || (r.r0 == 0#32 && r.r1 == 0#32))

/-- The response reports one of the causes that are logged (R200, R203). -/
def Response.reportsCause (r : Response) : Bool := decide (1 ≤ r.st.toNat ∧ r.st.toNat ≤ 10)

/-- The invariant of the machine. Every response is well formed; a bit of the log stands for a cause that some response
has reported, by its own code or a lower one (R202, R205); a halted unit has reported a cause (R206). -/
structure State.Inv (s : State) : Prop where
  responses_wellFormed : ∀ r ∈ s.responses, r.wellFormed = true
  logged_reported : ∀ k, s.cause.getLsbD k = true →
    ∃ r ∈ s.responses, 1 ≤ r.st.toNat ∧ r.st.toNat ≤ k + 1
  halted_reported : s.halted = true → ∃ r ∈ s.responses, r.reportsCause = true

/-- The host has kept every precondition so far: no response reports a cause. -/
def State.causeFree (s : State) : Bool := s.responses.all fun r => r.st == 0#32

/-- A step is safe when it goes on. -/
def StepsOn (o : Host.Outcome State Fault Refusal) : Prop := ∃ t, o = .next t

end Sys2Proof.Machine
end

