-- ==== Sys2Proof/Certificates/Slice0/Obligations.lean ====
section
/-! DEFINITION. The statements about VSMAG that the provers are given, from the numbered rules of spec/. A result
statement concludes that `exec` answers a next state and gives that state whole, so it is a completion statement and a
frame at once: every field not written in the record update is as before. -/

open Sys2Proof Sys2Proof.Machine

/-! ## Reset, inputs and the step -/

/-- R49: after reset the three fields are 0, and every constant register reads what it reads in any state. -/
def Obligations.ResetStateHasTheStatedValues : Prop :=
  State.reset.failfast = false ∧ State.reset.cause = 0#10 ∧ State.reset.halted = false ∧
    ∀ r s, csrAccess r = .ro → readCsr params r State.reset = readCsr params r s

/-- R230: reset clears the CTL state, with or without a command in flight; the command in flight gives no response and
nothing is logged for it; no constant register changes. -/
def Obligations.ResetClearsControlStateAndDropsTheCommandInFlight : Prop :=
  ∀ (s : State) (inFlight : Option Command) (rest : List HostInput), s.inputs = .reset inFlight :: rest →
    ∃ t, step s = .next t ∧ t = { s with failfast := false, cause := 0#10, halted := false, inputs := rest } ∧
      ∀ r, csrAccess r = .ro → readCsr params r t = readCsr params r s

/-- The model's choice (log entry 3), after R219: with no command outstanding the unit is idle and nothing changes. -/
def Obligations.IdleUnitStaysAsItIs : Prop :=
  ∀ s : State, s.inputs = [] → step s = .next s

/-- R236 and R86: the command the host sent next, when it decodes, is well formed and is what the step runs, in the state
that has taken it from the inputs. -/
def Obligations.StepRunsTheDecodedCommand : Prop :=
  ∀ (s : State) (c : Command) (rest : List HostInput) (i : Instr), s.inputs = .command c :: rest → decode c = .ok i →
    i.wellFormed = true ∧ step s = exec i { s with inputs := rest }

/-- R87: the decoder rejects exactly the illegal space, and an illegal command (which the halt does not refuse first)
changes no state but ERRSTAT bit 1, and HALTED when FAILFAST is 1; its results are 0 and its status is 1. That the halt does
not refuse an illegal word with a CSR opcode follows R86, against a note of 95_test_vectors.md: the model's choice (log entry
22). -/
def Obligations.IllegalCommandsAreExactlyTheIllegalSpace : Prop :=
  (∀ c : Command, (∃ e, decode c = .error e) ↔
    ((c.cmd.extractLsb' 0 8).toNat = 0 ∨ (9 ≤ (c.cmd.extractLsb' 0 8).toNat ∧ (c.cmd.extractLsb' 0 8).toNat ≤ 0xF) ∨
      0x12 ≤ (c.cmd.extractLsb' 0 8).toNat) ∨
    c.cmd.extractLsb' 10 6 ≠ 0#6 ∨ c.cmd.extractLsb' 24 8 ≠ 0#8 ∨
    (c.cmd.extractLsb' 0 8 = 0x02#8 ∧ c.cmd.extractLsb' 8 2 = 3#2) ∨
    (c.cmd.extractLsb' 0 8 ≠ 0x02#8 ∧ c.cmd.extractLsb' 8 2 ≠ 0#2) ∨
    (c.cmd.extractLsb' 0 8 ≠ 0x10#8 ∧ c.cmd.extractLsb' 0 8 ≠ 0x11#8 ∧ c.cmd.extractLsb' 16 8 ≠ 0#8)) ∧
  ∀ (s : State) (c : Command) (rest : List HostInput) (e : DecodeError), s.inputs = .command c :: rest →
    decode c = .error e →
    (s.halted = false ∨ c.cmd.extractLsb' 0 8 = 0x10#8 ∨ c.cmd.extractLsb' 0 8 = 0x11#8) →
    step s = .next { s with
      inputs := rest, cause := s.cause ||| 1#10, halted := s.halted || s.failfast,
      responses := s.responses ++ [⟨0#32, 0#32, 1#32⟩] }

/-- R207: while halted, every command, legal or not, whose opcode is not 0x10 or 0x11 is refused with status 11, and
nothing else changes; a CSRR or CSRW runs. -/
def Obligations.HaltedUnitRefusesAllButCsrCommands : Prop :=
  ∀ (s : State) (c : Command) (rest : List HostInput), s.halted = true → s.inputs = .command c :: rest →
    (c.cmd.extractLsb' 0 8 ≠ 0x10#8 → c.cmd.extractLsb' 0 8 ≠ 0x11#8 →
      step s = .next { s with inputs := rest, responses := s.responses ++ [⟨0#32, 0#32, 11#32⟩] }) ∧
    ∀ i, (c.cmd.extractLsb' 0 8 = 0x10#8 ∨ c.cmd.extractLsb' 0 8 = 0x11#8) → decode c = .ok i →
      step s = exec i { s with inputs := rest } ∧ ∃ t r, step s = .next t ∧ t.responses = s.responses ++ [r] ∧ r.st ≠ 11#32

/-- R238: whatever the state, a step goes on, and a command gets its one response. -/
def Obligations.EveryCommandGetsAResponse : Prop :=
  ∀ s : State, ∃ t, step s = .next t ∧
    ∀ c rest, s.inputs = .command c :: rest → t.inputs = rest ∧ ∃ r, t.responses = s.responses ++ [r]

/-- R236: commands issued one after another, from any state, are all executed in order, each whole in the state the ones
before it left; the responses already received stay, and each command adds one, none dropped, duplicated or merged. -/
def Obligations.CommandsInOrderGiveOneResponseEach : Prop :=
  ∀ (commands : List Command) (s : State) (rest : List HostInput),
    s.inputs = commands.map .command ++ rest →
    ∃ t answers, core.run commands.length s = .next t ∧ t.inputs = rest ∧
      t.responses = s.responses ++ answers ∧ answers.length = commands.length ∧
      ∀ k ≤ commands.length, ∃ u, core.run k s = .next u ∧ u.inputs = (commands.drop k).map .command ++ rest ∧
        u.responses = s.responses ++ answers.take k ∧
        ∀ c, commands[k]? = some c → ∃ v,
          runCommand c { u with inputs := (commands.drop (k + 1)).map .command ++ rest } = .next v ∧
          core.run (k + 1) s = .next v

/-! ## Encoding -/

/-- Decoding an encoded well-formed instruction gives it back, with every operand at every value. -/
def Obligations.DecodeOfEncodedInstructionIsTheInstruction : Prop :=
  ∀ i : Instr, i.wellFormed = true → decode (encode i) = .ok i

/-- The other direction: what decodes encodes to the same command, every word kept but those that the row's opcode ignores
(R82), which are encoded as 0 (R89). -/
def Obligations.EncodeOfDecodedCommandKeepsItsWords : Prop :=
  ∀ (c : Command) (i : Instr), decode c = .ok i → i.wellFormed = true ∧
    encode i = match i with
      | .ptaddr _ _ _ | .mipselAny _ _ _ | .mipselEven _ _ _ | .mipselOdd _ _ _ => c
      | .fxpack _ _ | .ivpack _ _ => { c with c := 0#32 }
      | .fxunpz _ | .fxisinv _ | .ivflags _ | .ivid _ | .csrw _ _ => { c with b := 0#32, c := 0#32 }
      | .csrr _ => { c with a := 0#32, b := 0#32, c := 0#32 }

/-- R85: a command decodes to the instruction of a row exactly when its word selects that row of the opcode table. -/
def Obligations.DecoderAgreesWithTheOpcodeTable : Prop :=
  ∀ (c : Command) (name : String),
    (∃ i, decode c = .ok i ∧ i.mnemonic = name) ↔
      ∃ row ∈ [("PTADDR", 0x00000001#32, 0xFFFFFFFF#32), ("MIPSEL.ANY", 0x00000002#32, 0xFFFFFFFF#32),
          ("MIPSEL.EVEN", 0x00000102#32, 0xFFFFFFFF#32), ("MIPSEL.ODD", 0x00000202#32, 0xFFFFFFFF#32),
          ("FXPACK", 0x00000003#32, 0xFFFFFFFF#32), ("FXUNPZ", 0x00000004#32, 0xFFFFFFFF#32),
          ("FXISINV", 0x00000005#32, 0xFFFFFFFF#32), ("IVPACK", 0x00000006#32, 0xFFFFFFFF#32),
          ("IVFLAGS", 0x00000007#32, 0xFFFFFFFF#32), ("IVID", 0x00000008#32, 0xFFFFFFFF#32),
          ("CSRR", 0x00000010#32, 0xFF00FFFF#32), ("CSRW", 0x00000011#32, 0xFF00FFFF#32)],
        row.1 = name ∧ c.cmd &&& row.2.2 = row.2.1

/-- R82 and R83: each opcode takes its operands from the words the table gives it, whatever the ignored words hold, and
the CSR address from CMD[23:16]. -/
def Obligations.OperandWordsReachTheirOperands : Prop :=
  ∀ a b c : Word,
    decode ⟨0x00000001#32, a, b, c⟩ = .ok (.ptaddr a b c) ∧
    decode ⟨0x00000002#32, a, b, c⟩ = .ok (.mipselAny a b c) ∧
    decode ⟨0x00000102#32, a, b, c⟩ = .ok (.mipselEven a b c) ∧
    decode ⟨0x00000202#32, a, b, c⟩ = .ok (.mipselOdd a b c) ∧
    decode ⟨0x00000003#32, a, b, c⟩ = .ok (.fxpack a b) ∧
    decode ⟨0x00000004#32, a, b, c⟩ = .ok (.fxunpz a) ∧
    decode ⟨0x00000005#32, a, b, c⟩ = .ok (.fxisinv a) ∧
    decode ⟨0x00000006#32, a, b, c⟩ = .ok (.ivpack a b) ∧
    decode ⟨0x00000007#32, a, b, c⟩ = .ok (.ivflags a) ∧
    decode ⟨0x00000008#32, a, b, c⟩ = .ok (.ivid a) ∧
    ∀ csr : BitVec 8,
      decode ⟨0#8 ++ csr ++ 0x0010#16, a, b, c⟩ = .ok (.csrr csr.toNat) ∧
      decode ⟨0#8 ++ csr ++ 0x0011#16, a, b, c⟩ = .ok (.csrw csr.toNat a)

/-- A few words written out from R85 and the programs of 95_test_vectors.md decode to what they stand for. -/
def Obligations.WordsOfTheSpecDecode : Prop :=
  decode ⟨0x00000001#32, 3#32, 15#32, 15#32⟩ = .ok (.ptaddr 3#32 15#32 15#32) ∧
  decode ⟨0x00000202#32, 0x42800000#32, 0#32, 0#32⟩ = .ok (.mipselOdd 0x42800000#32 0#32 0#32) ∧
  decode ⟨0x00000003#32, 0x00050003#32, 0xFFFFFFFD#32, 0#32⟩ = .ok (.fxpack 0x00050003#32 0xFFFFFFFD#32) ∧
  decode ⟨0x00000006#32, 1#32, 0xABC#32, 0#32⟩ = .ok (.ivpack 1#32 0xABC#32) ∧
  decode ⟨0x00060010#32, 0#32, 0#32, 0#32⟩ = .ok (.csrr 6) ∧
  decode ⟨0x00200011#32, 1#32, 0#32, 0#32⟩ = .ok (.csrw 0x20 1#32) ∧
  decode ⟨0x00000302#32, 0x42800000#32, 0#32, 0#32⟩ = .error .reservedMode ∧
  decode ⟨0x00000000#32, 0#32, 0#32, 0#32⟩ = .error .unknownOpcode

/-! ## Causes, status, log and halt -/

/-- R202: the status of a response is 0 for an empty cause set and else its lowest code. -/
def Obligations.StatusIsTheLowestCause : Prop :=
  ∀ (debug : Bool) (e : Effect) (s : State), ∃ st : Word,
    (endOfCommand debug e s).responses = s.responses ++ [⟨e.r0, e.r1, st⟩] ∧
    (e.causes = [] → st = 0#32) ∧
    (e.causes ≠ [] → (∃ c ∈ e.causes, st.toNat = c.code) ∧ ∀ c ∈ e.causes, st.toNat ≤ c.code)

/-- R203: the end of a command sets ERRSTAT[n] for exactly the codes 1 to 10 of its cause set, `E_HALTED` is never logged,
and over any step a set bit stays set unless a CSRW to ERRSTAT writes 1 to it or the unit is reset. -/
def Obligations.LogRecordsEveryCauseAndIsSticky : Prop :=
  (∀ (debug : Bool) (e : Effect) (s : State) (n : Nat), 1 ≤ n → n ≤ 10 →
    ((endOfCommand debug e s).cause.getLsbD (n - 1) = true ↔
      s.cause.getLsbD (n - 1) = true ∨ ∃ c ∈ e.causes, c.code = n)) ∧
  (∀ (debug : Bool) (s : State), (endOfCommand debug { causes := [.halted] } s).cause = s.cause) ∧
  ∀ (s t : State) (n : Nat), 1 ≤ n → n ≤ 10 → step s = .next t →
    s.cause.getLsbD (n - 1) = true → t.cause.getLsbD (n - 1) = false →
    (∃ inFlight rest, s.inputs = .reset inFlight :: rest) ∨
    ∃ c rest v, s.inputs = .command c :: rest ∧ decode c = .ok (.csrw 0x21 v) ∧ v.getLsbD n = true

/-- R206: a command that runs while the unit is not halted leaves it halted exactly when FAILFAST was 1 when it began and
its status is a code in 1..10. With FAILFAST 0 the unit never halts. -/
def Obligations.CauseInDebugModeHaltsTheUnit : Prop :=
  ∀ (i : Instr) (s : State), s.halted = false →
    ∃ t r, exec i s = .next t ∧ t.responses = s.responses ++ [r] ∧
      (t.halted = true ↔ s.failfast = true ∧ 1 ≤ r.st.toNat ∧ r.st.toNat ≤ 10)

/-- R208: over any step the unit leaves the halt only by reset or by a CSRW to HALT with bit 0 set, which keeps ERRSTAT and
FAILFAST; and such a CSRW always leaves it. -/
def Obligations.HaltEndsOnlyByCsrwHaltOrReset : Prop :=
  (∀ s t : State, step s = .next t → s.halted = true → t.halted = false →
    (∃ inFlight rest, s.inputs = .reset inFlight :: rest) ∨
    ∃ c rest v, s.inputs = .command c :: rest ∧ decode c = .ok (.csrw 0x22 v) ∧ v.getLsbD 0 = true ∧
      t.cause = s.cause ∧ t.failfast = s.failfast) ∧
  ∀ (s : State) (v : Word), v.getLsbD 0 = true →
    ∃ t, exec (.csrw 0x22 v) s = .next t ∧ t.halted = false ∧ t.cause = s.cause ∧ t.failfast = s.failfast

/-- R209: a CSRR or CSRW that reports a cause while halted logs it and the unit stays halted. -/
def Obligations.CauseWhileHaltedIsLoggedAndStaysHalted : Prop :=
  ∀ (s : State) (i : Instr) (t : State) (r : Response), s.halted = true →
    ((∃ a, i = .csrr a) ∨ ∃ a v, i = .csrw a v) → exec i s = .next t → t.responses = s.responses ++ [r] →
    r.st ≠ 0#32 → t.halted = true ∧ t.cause.getLsbD (r.st.toNat - 1) = true

/-- FAILFAST changes only by a CSRW to CTRL or by reset (R45, R204, R208). -/
def Obligations.FailfastChangesOnlyByCsrwCtrlOrReset : Prop :=
  ∀ s t : State, step s = .next t → t.failfast ≠ s.failfast →
    (∃ inFlight rest, s.inputs = .reset inFlight :: rest) ∨
    ∃ c rest v, s.inputs = .command c :: rest ∧ decode c = .ok (.csrw 0x20 v) ∧ v.getLsbD 0 = t.failfast

/-- R204: a command that reports a cause changes the CTL state only by its log and by the halt, whatever the command. -/
def Obligations.ViolationChangesOnlyLogAndHalt : Prop :=
  ∀ (i : Instr) (s t : State) (r : Response), exec i s = .next t → t.responses = s.responses ++ [r] → r.st ≠ 0#32 →
    t.failfast = s.failfast ∧ t.inputs = s.inputs ∧
    (∀ k, s.cause.getLsbD k = true → t.cause.getLsbD k = true) ∧ (s.halted = true → t.halted = true) ∧
    (s.halted = false → t.halted = true → s.failfast = true)

/-- Frame of every command but CSRW: FAILFAST and the inputs are as before, one response is added, no bit of the log is
cleared, the halt is not left; and a command that reports no cause changes nothing but the responses. -/
def Obligations.CommandsOtherThanCsrwKeepTheControlState : Prop :=
  ∀ (i : Instr) (s : State), (∀ a v, i ≠ .csrw a v) →
    ∃ t r, exec i s = .next t ∧ t.responses = s.responses ++ [r] ∧
      t.failfast = s.failfast ∧ t.inputs = s.inputs ∧
      (∀ k, s.cause.getLsbD k = true → t.cause.getLsbD k = true) ∧ (s.halted = true → t.halted = true) ∧
      (r.st = 0#32 ∨ r.st = 11#32 → t = { s with responses := s.responses ++ [r] })

/-- From any state that meets the invariant, a step gives a state that meets it: response codes stay in 0..11, refused
commands returned zeros, and a logged cause or a halt has been reported in a response (R84, R200, R205). -/
def Obligations.StepKeepsTheStateSound : Prop :=
  ∀ s t : State, s.Inv → step s = .next t → t.Inv

/-- The invariant holds after reset: the log and the halt are clear (R49), and no response has been received, which is the
model's choice (log entry 2). -/
def Obligations.ResetStateIsSound : Prop := State.reset.Inv

/-- R13: the response and the new CTL state depend on the command and the CTL state alone, and beside the CTL state a
command changes nothing but the responses, by its own. -/
def Obligations.ResultDependsOnCommandAndControlStateOnly : Prop :=
  ∀ (i : Instr) (s s' : State), s.failfast = s'.failfast → s.cause = s'.cause → s.halted = s'.halted →
    ∃ t t' r, exec i s = .next t ∧ exec i s' = .next t' ∧
      t.responses = s.responses ++ [r] ∧ t'.responses = s'.responses ++ [r] ∧
      t.failfast = t'.failfast ∧ t.cause = t'.cause ∧ t.halted = t'.halted ∧ t.inputs = s.inputs ∧ t'.inputs = s'.inputs

/-- R67: a command other than CSRW that detects no cause gives the same response when it is issued again. -/
def Obligations.CleanCommandGivesTheSameResponseTwice : Prop :=
  ∀ (i : Instr) (s t : State) (r : Response), (∀ a v, i ≠ .csrw a v) → exec i s = .next t →
    t.responses = s.responses ++ [r] → r.st = 0#32 →
    ∃ u, exec i t = .next u ∧ u.responses = t.responses ++ [r]

/-- R240: a step of one instance is a step of its own state and leaves every other instance as it is. -/
def Obligations.InstancesShareNoState : Prop :=
  ∀ (k : Nat) (system : List State) (s : State), system[k]? = some s →
    ∃ t system', step s = .next t ∧ stepInstance k system = .next system' ∧ system'[k]? = some t ∧
      ∀ j, j ≠ k → system'[j]? = system[j]?

/-! ## PTADDR -/

/-- R110, R111 and R113: the sizes of the levels, the three forms of the offsets, and the capacity. -/
def Obligations.LevelOffsetsHaveTheirClosedForms : Prop :=
  (∀ m < 8, dim m = 128 / 2 ^ m ∧ dim m = 2 ^ (7 - m) ∧ count m = dim m ^ 2 ∧ count m = 4 ^ (7 - m)) ∧
  (∀ m ≤ 8, levelOffset m = ((List.range m).map count).sum ∧ levelOffset m = (4 ^ 8 - 4 ^ (8 - m)) / 3 ∧
    levelOffset m = (0x5555#16 &&& ~~~(0xFFFF#16 >>> (2 * m))).toNat) ∧
  pageTableCapacity = levelOffset 8 ∧ pageTableCapacity = 16384 + 4096 + 1024 + 256 + 64 + 16 + 4 + 1 ∧
    pageTableCapacity = 21845

/-- R112: for a valid triple PTADDR returns the row-major index within the run of its level, below 21845, with no cause,
and nothing else changes. -/
def Obligations.PtaddrOfAValidTripleIsTheRowMajorIndex : Prop :=
  ∀ (s : State) (m x y : Word), s.halted = false → m.toNat < 8 → x.toNat < 128 >>> m.toNat → y.toNat < 128 >>> m.toNat →
    let offset := ((List.range m.toNat).map fun k => (128 >>> k) ^ 2).sum
    exec (.ptaddr m x y) s = .next { s with
      responses := s.responses ++ [⟨BitVec.ofNat 32 (offset + y.toNat * (128 >>> m.toNat) + x.toNat), 0#32, 0#32⟩] } ∧
    offset + y.toNat * (128 >>> m.toNat) + x.toNat = offset + y.toNat <<< (7 - m.toNat) + x.toNat ∧
    offset + y.toNat * (128 >>> m.toNat) + x.toNat ≤ 21844

/-- R115: PTADDR for all operands: level and coordinates saturate, each violation is a cause, the status is the lower
code, both are logged, and the unit halts in debug mode. -/
def Obligations.PtaddrSaturatesAndReports : Prop :=
  ∀ (s : State) (m x y : Word), s.halted = false →
    let m' := min m.toNat 7
    let d := 128 >>> m'
    let badMip := decide (8 ≤ m.toNat)
    let badCoord := decide (d ≤ x.toNat ∨ d ≤ y.toNat)
    exec (.ptaddr m x y) s = .next { s with
      cause := (s.cause ||| (if badMip then 0b10#10 else 0#10)) ||| (if badCoord then 0b100#10 else 0#10)
      halted := s.failfast && (badMip || badCoord)
      responses := s.responses ++
        [⟨BitVec.ofNat 32 (levelOffset m' + min y.toNat (d - 1) * d + min x.toNat (d - 1)), 0#32,
          if badMip then 2#32 else if badCoord then 3#32 else 0#32⟩] }

/-- R115: the index PTADDR returns is below the capacity for all operands, valid or not. -/
def Obligations.PtaddrNeverLeavesThePageTable : Prop :=
  ∀ (s : State) (m x y : Word), s.halted = false →
    ∃ t r, exec (.ptaddr m x y) s = .next t ∧ t.responses = s.responses ++ [r] ∧ r.r0.toNat ≤ 21844 ∧ r.r1 = 0#32

/-- R116: over valid triples the index PTADDR returns is a bijection onto the slots. -/
def Obligations.PtaddrIsABijectionOntoTheSlots : Prop :=
  ∀ s : State, s.halted = false →
    (∀ i : Nat, i < 21845 → ∃ m x y : Word, validTriple m.toNat x.toNat y.toNat = true ∧
      exec (.ptaddr m x y) s = .next { s with responses := s.responses ++ [⟨BitVec.ofNat 32 i, 0#32, 0#32⟩] }) ∧
    (∀ m x y : Word, validTriple m.toNat x.toNat y.toNat = true → ∃ i : Nat, i < 21845 ∧
      exec (.ptaddr m x y) s = .next { s with responses := s.responses ++ [⟨BitVec.ofNat 32 i, 0#32, 0#32⟩] }) ∧
    ∀ m x y m' x' y' : Word, validTriple m.toNat x.toNat y.toNat = true → validTriple m'.toNat x'.toNat y'.toNat = true →
      exec (.ptaddr m x y) s = exec (.ptaddr m' x' y') s → m = m' ∧ x = x' ∧ y = y'

/-- R117: the inverse gives the unique level whose run holds the slot, and its coordinates. -/
def Obligations.SlotTripleIsTheInverseOfTheIndex : Prop :=
  (∀ i < 21845, ∀ m x y, slotTriple i = (m, x, y) →
    validTriple m x y = true ∧ pageIndex m x y = i ∧
    (levelOffset m ≤ i ∧ i < levelOffset (m + 1)) ∧
    (∀ k < 8, levelOffset k ≤ i → i < levelOffset (k + 1) → k = m) ∧
    x = (i - levelOffset m) % dim m ∧ y = (i - levelOffset m) / dim m) ∧
  ∀ m x y, validTriple m x y = true → slotTriple (pageIndex m x y) = (m, x, y)

/-! ## MIPSEL -/

/-- The parameters the model makes from its free constants (log entries 6 to 8) lie in the ranges of R6, and its `LOG2` has
P1 to P4 of R131, with P2 at 2^0 read as +0 (log entry 8). -/
def Obligations.BuildParametersAreLegal : Prop := ParamsLegal params

/-- Every legal choice of the parameters comes from some values of the free constants, so the model assumes nothing of
them but that they are legal (R6, R131; log entries 6 to 8). -/
def Obligations.EveryLegalBuildIsCovered : Prop :=
  ∀ p : Params, ParamsLegal p → ∃ bias depth raw, paramsFrom bias depth raw = p

/-- R139, with R133, R135 and R140: the three selectors. A valid footprint gives the clamped level of the biased `LOG2`,
an invalid one level 0 and cause 4; the parity override comes last. -/
def Obligations.MipselSelectsTheBiasedLevel : Prop :=
  ∀ (s : State) (a b c : Word), s.halted = false →
    let ok := validFootprint a
    let raw := fadd (fadd (f32 (params.log2 a)) (f32 b)) (f32 c)
    let u : Word := if ok then BitVec.ofNat 32 (clampLevel raw) else 0#32
    let after (level : Word) : State := { s with
      cause := s.cause ||| (if ok then 0#10 else 0b1000#10)
      halted := s.failfast && !ok
      responses := s.responses ++ [⟨level, 0#32, if ok then 0#32 else 4#32⟩] }
    exec (.mipselAny a b c) s = .next (after u) ∧
    exec (.mipselEven a b c) s = .next (after (u &&& ~~~1#32)) ∧
    exec (.mipselOdd a b c) s = .next (after (u ||| 1#32))

/-- R132: a footprint is valid exactly when its sign bit is 0, it is not +0 and it is not a NaN. -/
def Obligations.ValidFootprintsArePositive : Prop :=
  (∀ a : Word, validFootprint a = true ↔
    a.getLsbD 31 = false ∧ a ≠ 0x00000000#32 ∧ ¬((a.extractLsb' 23 8).toNat = 255 ∧ a.extractLsb' 0 23 ≠ 0#23)) ∧
  validFootprint 0x7F800000#32 = true ∧ validFootprint 0x00000001#32 = true

/-- R134: the clamped level is 0 for a NaN and for a value at most 0, 7 for a value at least 7, and else the floor. -/
def Obligations.ClampedLevelIsTheSaturatedFloor : Prop :=
  ∀ raw : F32,
    (raw = .nan → clampLevel raw = 0) ∧
    (raw.le (F32.ofInteger 0) = true → clampLevel raw = 0) ∧
    ((F32.ofInteger 7).le raw = true → clampLevel raw = 7) ∧
    (raw ≠ .nan → raw.le (F32.ofInteger 0) = false → (F32.ofInteger 7).le raw = false →
      clampLevel raw ≤ 6 ∧ (F32.ofInteger (clampLevel raw)).le raw = true ∧
      (F32.ofInteger (clampLevel raw + 1)).le raw = false)

/-- R141: every level is below 8, the even selector's is even and the odd selector's is odd, for all operands. -/
def Obligations.MipselStaysInRangeAndKeepsParity : Prop :=
  ∀ (s : State) (a b c : Word), s.halted = false →
    (∃ t r, exec (.mipselAny a b c) s = .next t ∧ t.responses = s.responses ++ [r] ∧ r.r0.toNat < 8) ∧
    (∃ t r, exec (.mipselEven a b c) s = .next t ∧ t.responses = s.responses ++ [r] ∧ r.r0.toNat < 8 ∧
      r.r0.toNat % 2 = 0) ∧
    ∃ t r, exec (.mipselOdd a b c) s = .next t ∧ t.responses = s.responses ++ [r] ∧ r.r0.toNat < 8 ∧ r.r0.toNat % 2 = 1

/-- R142: with the biases fixed, the level never falls when the footprint rises, every invalid footprint standing below
every valid one; in each of the three modes and for all biases, NaN and infinite ones too. -/
def Obligations.MipselIsMonotoneInTheFootprint : Prop :=
  ∀ (s : State) (a a' b c : Word), s.halted = false →
    (validFootprint a = false ∨ (validFootprint a = true ∧ validFootprint a' = true ∧ (f32 a).le (f32 a') = true)) →
    ∀ make ∈ [Instr.mipselAny, Instr.mipselEven, Instr.mipselOdd],
      ∃ t t' r r', exec (make a b c) s = .next t ∧ exec (make a' b c) s = .next t' ∧
        t.responses = s.responses ++ [r] ∧ t'.responses = s.responses ++ [r'] ∧ r.r0.toNat ≤ r'.r0.toNat

/-- R143: with zero biases MIPSEL.ANY of `2^k` gives `k` clamped to 0..7, and of a footprint strictly between `2^k` and
`2^(k+1)` it gives the clamp of `k` or of `k + 1`. -/
def Obligations.MipselOfPowersOfTwo : Prop :=
  ∀ (s : State) (k : Int) (b c : Word), s.halted = false → -149 ≤ k → k ≤ 127 →
    (b = 0x00000000#32 ∨ b = 0x80000000#32) → (c = 0x00000000#32 ∨ c = 0x80000000#32) →
    let clamp (j : Int) : Nat := (min (max j 0) 7).toNat
    let answers (a : Word) (n : Nat) : Prop :=
      exec (.mipselAny a b c) s = .next { s with responses := s.responses ++ [⟨BitVec.ofNat 32 n, 0#32, 0#32⟩] }
    answers (powerOfTwoWord k) (clamp k) ∧
    ∀ a : Word, validFootprint a = true → (f32 a).le (f32 (powerOfTwoWord k)) = false →
      (k < 127 → (f32 (powerOfTwoWord (k + 1))).le (f32 a) = false) → a ≠ 0x7F800000#32 →
      answers a (clamp k) ∨ answers a (clamp (k + 1))

/-- R11: `fadd` of any two finite values. An exact zero sum is -0 only for two negative operands; any other sum is rounded to
a magnitude of at most 24 significant bits to which none other lies nearer, even at a tie, and keeps its sign; a rounded
magnitude of 2^128 or more (in units of 2^-149) is infinity. Format and rounding are general knowledge (log entry 10). -/
def Obligations.RoundingIsToNearestTiesToEven : Prop :=
  ∀ (n m : Bool) (a b : Nat),
    let sum : Int := (F32.finite n a).units + (F32.finite m b).units
    (sum = 0 → fadd (.finite n a) (.finite m b) = .finite (n && m) 0) ∧
    (sum ≠ 0 → ∃ mag : Nat,
      fadd (.finite n a) (.finite m b) =
        (if 2 ^ 128 * 2 ^ 149 ≤ mag then .inf (decide (sum < 0)) else .finite (decide (sum < 0)) mag) ∧
      (∃ q e, q ≤ 2 ^ 24 ∧ mag = q * 2 ^ e) ∧
      ∀ q e : Nat, q < 2 ^ 24 →
        ((mag : Int) - sum.natAbs).natAbs ≤ (((q * 2 ^ e : Nat) : Int) - sum.natAbs).natAbs ∧
        (((mag : Int) - sum.natAbs).natAbs = (((q * 2 ^ e : Nat) : Int) - sum.natAbs).natAbs → q * 2 ^ e ≠ mag →
          mag / 2 ^ (sum.natAbs.log2 - 23) % 2 = 0))

/-- The signs of zero and the special values of `fadd` (R11, R133, R136): adding -0 changes no value, NaN and infinities
are as in IEEE 754, and the sum does not depend on the order of the two operands. -/
def Obligations.FaddOfSpecialValues : Prop :=
  (∀ w : Word, fadd (f32 w) (f32 0x80000000#32) = f32 w) ∧
  (∀ x y : F32, fadd x y = fadd y x) ∧
  (∀ x : F32, fadd .nan x = .nan) ∧
  (∀ (n s : Bool) (m : Nat), fadd (.inf s) (.finite n m) = .inf s ∧ fadd (.inf s) (.inf s) = .inf s ∧
    fadd (.inf s) (.inf !s) = .nan) ∧
  ∀ w : Word, (f32 w).isFinite = true → fadd (f32 w) (f32 (w ^^^ 0x80000000#32)) = .finite false 0

/-! ## FXPACK, FXUNPZ, FXISINV -/

/-- R155: FXPACK for all operands. XY is carried; Z is the sentinel, the biased slice, or saturated with cause 5. -/
def Obligations.FxpackBiasesOrSaturates : Prop :=
  ∀ (s : State) (xy z : Word), s.halted = false →
    let bias := params.sliceBias
    let after (packed : Int) (bad : Bool) : State := { s with
      cause := s.cause ||| (if bad then 0b10000#10 else 0#10)
      halted := s.failfast && bad
      responses := s.responses ++ [⟨xy, BitVec.ofInt 32 packed, if bad then 5#32 else 0#32⟩] }
    (z.toInt = params.invalidPackedZ - bias → exec (.fxpack xy z) s = .next (after params.invalidPackedZ false)) ∧
    (-bias ≤ z.toInt → z.toInt ≤ 2 ^ 31 - 1 - bias → exec (.fxpack xy z) s = .next (after (z.toInt + bias) false)) ∧
    (z.toInt < -bias → z.toInt ≠ params.invalidPackedZ - bias → exec (.fxpack xy z) s = .next (after 0 true)) ∧
    (2 ^ 31 - 1 - bias < z.toInt → exec (.fxpack xy z) s = .next (after (2 ^ 31 - 1) true))

/-- R156: FXUNPZ for all operands. The sentinel gives the invalid slice, a non-negative Z its slice, another negative Z the
difference saturated at -2^31 with cause 6. -/
def Obligations.FxunpzUnbiasesOrSaturates : Prop :=
  ∀ (s : State) (z : Word), s.halted = false →
    let bias := params.sliceBias
    let after (slice : Int) (bad : Bool) : State := { s with
      cause := s.cause ||| (if bad then 0b100000#10 else 0#10)
      halted := s.failfast && bad
      responses := s.responses ++ [⟨BitVec.ofInt 32 slice, 0#32, if bad then 6#32 else 0#32⟩] }
    (z.toInt = params.invalidPackedZ → exec (.fxunpz z) s = .next (after (params.invalidPackedZ - bias) false)) ∧
    (0 ≤ z.toInt → exec (.fxunpz z) s = .next (after (z.toInt - bias) false)) ∧
    (z.toInt < 0 → z.toInt ≠ params.invalidPackedZ →
      exec (.fxunpz z) s = .next (after (max (z.toInt - bias) (-2 ^ 31)) true))

/-- R157: FXISINV gives 1 for the sentinel alone, with no cause. -/
def Obligations.FxisinvTestsForTheSentinel : Prop :=
  ∀ (s : State) (z : Word), s.halted = false →
    exec (.fxisinv z) s = .next { s with
      responses := s.responses ++ [⟨if z.toInt = params.invalidPackedZ then 1#32 else 0#32, 0#32, 0#32⟩] }

/-- R158: packing a representable slice and unpacking it gives it back and is never the sentinel; the invalid slice goes
to the sentinel and back; XY is carried for every slice. -/
def Obligations.FroxelCodecRoundTrips : Prop :=
  ∀ (s : State) (xy z : Word), s.halted = false →
    let answers (i : Instr) (r0 r1 : Word) : Prop :=
      exec i s = .next { s with responses := s.responses ++ [⟨r0, r1, 0#32⟩] }
    (-params.sliceBias ≤ z.toInt → z.toInt ≤ 2 ^ 31 - 1 - params.sliceBias →
      ∃ packed, answers (.fxpack xy z) xy packed ∧ answers (.fxunpz packed) z 0#32 ∧ answers (.fxisinv packed) 0#32 0#32) ∧
    (z.toInt = params.invalidPackedZ - params.sliceBias →
      ∃ packed, answers (.fxpack xy z) xy packed ∧ answers (.fxunpz packed) z 0#32 ∧ answers (.fxisinv packed) 1#32 0#32) ∧
    ∃ t r, exec (.fxpack xy z) s = .next t ∧ t.responses = s.responses ++ [r] ∧ r.r0 = xy

/-! ## IVPACK, IVFLAGS, IVID -/

/-- R172: IVPACK for all operands: both fields are masked, and each oversized one is a cause. -/
def Obligations.IvpackMasksAndReports : Prop :=
  ∀ (s : State) (flags vsmId : Word), s.halted = false →
    let badFlags := decide (0xFF < flags.toNat)
    let badId := decide (0xFFFFFF < vsmId.toNat)
    exec (.ivpack flags vsmId) s = .next { s with
      cause := (s.cause ||| (if badFlags then 0b1000000#10 else 0#10)) ||| (if badId then 0b10000000#10 else 0#10)
      halted := s.failfast && (badFlags || badId)
      responses := s.responses ++
        [⟨vsmId.extractLsb' 0 24 ++ flags.extractLsb' 0 8, 0#32,
          if badFlags then 7#32 else if badId then 8#32 else 0#32⟩] }

/-- R173 and R174: IVFLAGS returns the low byte and IVID the payload shifted right logically by 8, with no cause. -/
def Obligations.IvflagsAndIvidSplitThePayload : Prop :=
  ∀ (s : State) (payload : Word), s.halted = false →
    exec (.ivflags payload) s = .next { s with
      responses := s.responses ++ [⟨BitVec.ofNat 32 (payload.toNat % 256), 0#32, 0#32⟩] } ∧
    exec (.ivid payload) s = .next { s with
      responses := s.responses ++ [⟨BitVec.ofNat 32 (payload.toNat / 256), 0#32, 0#32⟩] }

/-- R175: the payload codec round-trips both ways, with no cause. -/
def Obligations.PayloadCodecRoundTrips : Prop :=
  ∀ s : State, s.halted = false →
    let answers (i : Instr) (r0 : Word) : Prop :=
      exec i s = .next { s with responses := s.responses ++ [⟨r0, 0#32, 0#32⟩] }
    (∀ flags vsmId : Word, flags.toNat ≤ 255 → vsmId.toNat ≤ 2 ^ 24 - 1 →
      ∃ payload, answers (.ivpack flags vsmId) payload ∧ answers (.ivflags payload) flags ∧
        answers (.ivid payload) vsmId) ∧
    ∀ payload : Word, ∃ flags vsmId, answers (.ivflags payload) flags ∧ answers (.ivid payload) vsmId ∧
      flags.toNat ≤ 255 ∧ vsmId.toNat ≤ 2 ^ 24 - 1 ∧ answers (.ivpack flags vsmId) payload

/-! ## CSRR, CSRW -/

/-- R36 to R44 and R50: each constant register reads its value in every state, halted or not; a write of it returns the
value, raises cause 10 and writes nothing. -/
def Obligations.ConstantRegistersReadAndRefuseWrites : Prop :=
  ∀ (s : State) (v : Word), ∀ entry ∈ ([(0x00, 7#32), (0x01, 128#32), (0x02, 7#32), (0x03, 128#32), (0x04, 8#32),
      (0x05, 16384#32), (0x06, 21845#32), (0x07, 8#32), (0x08, BitVec.ofInt 32 params.sliceBias),
      (0x09, BitVec.ofInt 32 params.invalidPackedZ),
      (0x0A, BitVec.ofInt 32 (params.invalidPackedZ - params.sliceBias)),
      (0x10, 0x0000#32), (0x11, 0x4000#32), (0x12, 0x5000#32), (0x13, 0x5400#32), (0x14, 0x5500#32), (0x15, 0x5540#32),
      (0x16, 0x5550#32), (0x17, 0x5554#32)] : List (Nat × Word)),
    exec (.csrr entry.1) s = .next { s with responses := s.responses ++ [⟨entry.2, 0#32, 0#32⟩] } ∧
    exec (.csrw entry.1 v) s = .next { s with
      cause := s.cause ||| 0b1000000000#10, halted := s.halted || s.failfast
      responses := s.responses ++ [⟨entry.2, 0#32, 10#32⟩] }

/-- R48: a CSRR or CSRW to an address of the three unmapped ranges returns 0 with cause 9 and has no other effect; at every
other address of the CSR space neither reports cause 9. -/
def Obligations.UnmappedCsrAddressesAreExactlyTheListed : Prop :=
  ∀ (s : State) (a : Nat) (v : Word), a < 256 →
    let refused : Host.Outcome State Fault Refusal := .next { s with
      cause := s.cause ||| 0b100000000#10, halted := s.halted || s.failfast
      responses := s.responses ++ [⟨0#32, 0#32, 9#32⟩] }
    if (0x0B ≤ a ∧ a ≤ 0x0F) ∨ (0x18 ≤ a ∧ a ≤ 0x1F) ∨ (0x23 ≤ a ∧ a ≤ 0xFF) then
      exec (.csrr a) s = refused ∧ exec (.csrw a v) s = refused
    else
      (∃ t r, exec (.csrr a) s = .next t ∧ t.responses = s.responses ++ [r] ∧ r.st = 0#32) ∧
      ∃ t r, exec (.csrw a v) s = .next t ∧ t.responses = s.responses ++ [r] ∧ r.st ≠ 9#32

/-- R185 on the three registers of the CTL state: the field at its place, reserved bits 0, no side effect. -/
def Obligations.CsrrReadsTheControlState : Prop :=
  ∀ s : State,
    exec (.csrr 0x20) s = .next { s with
      responses := s.responses ++ [⟨if s.failfast then 1#32 else 0#32, 0#32, 0#32⟩] } ∧
    exec (.csrr 0x21) s = .next { s with responses := s.responses ++ [⟨0#21 ++ s.cause ++ 0#1, 0#32, 0#32⟩] } ∧
    exec (.csrr 0x22) s = .next { s with
      responses := s.responses ++ [⟨if s.halted then 1#32 else 0#32, 0#32, 0#32⟩] }

/-- R45: a CSRW to CTRL sets FAILFAST to bit 0 of the value, ignores the rest and returns the old word, in every state. -/
def Obligations.CsrwCtrlSetsFailfast : Prop :=
  ∀ (s : State) (v : Word),
    exec (.csrw 0x20 v) s = .next { s with
      failfast := v.getLsbD 0
      responses := s.responses ++ [⟨if s.failfast then 1#32 else 0#32, 0#32, 0#32⟩] }

/-- R46: a CSRW to ERRSTAT clears exactly the bits of the value in 10:1 and returns the old word, in every state. -/
def Obligations.CsrwErrstatClearsTheWrittenOnes : Prop :=
  ∀ (s : State) (v : Word),
    exec (.csrw 0x21 v) s = .next { s with
      cause := s.cause &&& ~~~(v.extractLsb' 1 10)
      responses := s.responses ++ [⟨0#21 ++ s.cause ++ 0#1, 0#32, 0#32⟩] }

/-- R47: a CSRW to HALT clears HALTED when bit 0 of the value is 1, else keeps it, and returns the old word. -/
def Obligations.CsrwHaltClearsHalted : Prop :=
  ∀ (s : State) (v : Word),
    exec (.csrw 0x22 v) s = .next { s with
      halted := s.halted && !v.getLsbD 0
      responses := s.responses ++ [⟨if s.halted then 1#32 else 0#32, 0#32, 0#32⟩] }

/-! ## Memory images and the assembler -/

/-- R62 and R63: the image of a PackedFroxel is XY then Z, each little-endian, and a word read gives each back. -/
def Obligations.FroxelImageIsXyThenZLittleEndian : Prop :=
  ∀ xy z : Word,
    froxelImage xy z = [xy.extractLsb' 0 8, xy.extractLsb' 8 8, xy.extractLsb' 16 8, xy.extractLsb' 24 8,
      z.extractLsb' 0 8, z.extractLsb' 8 8, z.extractLsb' 16 8, z.extractLsb' 24 8] ∧
    readWord (froxelImage xy z) 0 = xy ∧ readWord (froxelImage xy z) 4 = z

/-- R64 and R65: the image of the payload IVPACK returns is the flags byte and then the three bytes of the id; a byte read
of offset 0 sees the flags, a 16-bit read the low id byte over them; a byte read of offset 4 of a froxel sees `Z[7:0]`. -/
def Obligations.PayloadImageIsFlagsThenId : Prop :=
  ∀ (s : State) (flags vsmId : Word), s.halted = false → flags.toNat ≤ 255 → vsmId.toNat ≤ 2 ^ 24 - 1 →
    ∃ t r, exec (.ivpack flags vsmId) s = .next t ∧ t.responses = s.responses ++ [r] ∧
      payloadImage r.r0 = [flags.extractLsb' 0 8, vsmId.extractLsb' 0 8, vsmId.extractLsb' 8 8, vsmId.extractLsb' 16 8] ∧
      readByte (payloadImage r.r0) 0 = flags.extractLsb' 0 8 ∧
      readHalf (payloadImage r.r0) 0 = vsmId.extractLsb' 0 8 ++ flags.extractLsb' 0 8 ∧
      ∀ xy z : Word, readByte (froxelImage xy z) 4 = z.extractLsb' 0 8

/-- R89: a line that assembles gives a legal command. Its `CMD` is the `match` of the mnemonic's row with the CSR operand in
`CMD[23:16]`; its data operands fill `A`, `B`, `C` in order, an absent word is 0 (that a line may give fewer operands than its
row is log entry 16). Ints and CSR addresses out of range do not assemble, and a name stands for the result word of its
line, the latest that binds it, which is the model's choice (log entry 21). -/
def Obligations.AssembledLinesAreLegalCommands : Prop :=
  (∀ (p : Params) (names : HostNames) (l : AsmLine) (c : Command), assemble p names l = .ok c →
    ∃ i, assembleInstr p names l = .ok i ∧ i.wellFormed = true ∧ decode c = .ok i) ∧
  (∀ (p : Params) (names : HostNames) (n : Option String) (os : List AsmOperand) (c : Command),
    (∀ row ∈ ([(.ptaddr, 0x00000001#32, 3), (.mipselAny, 0x00000002#32, 3), (.mipselEven, 0x00000102#32, 3),
        (.mipselOdd, 0x00000202#32, 3), (.fxpack, 0x00000003#32, 2), (.fxunpz, 0x00000004#32, 1),
        (.fxisinv, 0x00000005#32, 1), (.ivpack, 0x00000006#32, 2), (.ivflags, 0x00000007#32, 1),
        (.ivid, 0x00000008#32, 1)] : List (AsmMnemonic × Word × Nat)),
      assemble p names ⟨n, row.1, os⟩ = .ok c ↔
        os.length ≤ row.2.2 ∧ ∃ ws, List.Forall₂ (fun o w => dataWord names o = .ok w) os ws ∧
          c = ⟨row.2.1, ws.getD 0 0#32, ws.getD 1 0#32, ws.getD 2 0#32⟩) ∧
    (assemble p names ⟨n, .csrr, os⟩ = .ok c ↔
      ∃ o a, os = [o] ∧ csrNumber o = .ok a ∧ c = ⟨BitVec.ofNat 32 (0x10 + a * 2 ^ 16), 0#32, 0#32, 0#32⟩) ∧
    (assemble p names ⟨n, .csrw, os⟩ = .ok c ↔
      ∃ o a rest ws, os = o :: rest ∧ rest.length ≤ 1 ∧ csrNumber o = .ok a ∧
        List.Forall₂ (fun o w => dataWord names o = .ok w) rest ws ∧
        c = ⟨BitVec.ofNat 32 (0x11 + a * 2 ^ 16), ws.getD 0 0#32, 0#32, 0#32⟩)) ∧
  (∀ (names : HostNames) (v : Int) (w : Word), dataWord names (.int v) = .ok w ↔
    (-2 ^ 31 ≤ v ∧ v ≤ 2 ^ 32 - 1) ∧ w = BitVec.ofInt 32 v) ∧
  (∀ (v : Int) (a : Nat), csrNumber (.csrRaw v) = .ok a ↔ (0 ≤ v ∧ v ≤ 255) ∧ a = v.toNat) ∧
  (∀ (r : Csr) (a : Nat), csrNumber (.csrName r) = .ok a ↔ csrAt a = some r) ∧
  ∀ (names : HostNames) (name : String) (r : Response),
    dataWord ((name, r) :: names) (.result name .r0) = .ok r.r0 ∧
    dataWord ((name, r) :: names) (.result name .r1) = .ok r.r1

/-- R90: each pseudo-instruction assembles to the command its expansion gives. -/
def Obligations.PseudoInstructionsExpand : Prop :=
  ∀ (p : Params) (names : HostNames) (n : Option String),
    (∀ os, assemble p names ⟨n, .mipsel, os⟩ = assemble p names ⟨n, .mipselAny, os⟩) ∧
    (∀ xy, assemble p names ⟨n, .fxinval, [xy]⟩ = assemble p names ⟨n, .fxpack, [xy, .int (p.invalidPackedZ - p.sliceBias)]⟩) ∧
    (∀ m : Int, 0 ≤ m → m ≤ 7 →
      assemble p names ⟨n, .ptlvl, [.int m]⟩ = .ok ⟨0x00100010#32 + BitVec.ofInt 32 (m * 2 ^ 16), 0#32, 0#32, 0#32⟩) ∧
    assemble p names ⟨n, .errclr, []⟩ = .ok ⟨0x00210011#32, 0x7FE#32, 0#32, 0#32⟩ ∧
    assemble p names ⟨n, .resume, []⟩ = .ok ⟨0x00220011#32, 1#32, 0#32, 0#32⟩ ∧
    assemble p names ⟨n, .debug, []⟩ = .ok ⟨0x00200011#32, 1#32, 0#32, 0#32⟩ ∧
    assemble p names ⟨n, .release, []⟩ = .ok ⟨0x00200011#32, 0#32, 0#32, 0#32⟩

/-- R88 and R89: a decimal float operand assembles exactly when binary32 represents it, and then to its pattern; the named
floats are the patterns R88 and R11 give. That a decimal zero with a minus sign is the pattern of -0 is the model's choice
(log entry 16): R88 lists `f:-0` alone. Format: log entry 10. -/
def Obligations.FloatOperandsAreExact : Prop :=
  (∀ (names : HostNames) (neg : Bool) (digits places : Nat) (w : Word),
    dataWord names (.float (.decimal neg digits places)) = .ok w ↔
      ∃ mag, f32 w = .finite neg mag ∧ mag * 10 ^ places = digits * 2 ^ 149) ∧
  ∀ names : HostNames,
    dataWord names (.float .posInf) = .ok 0x7F800000#32 ∧ dataWord names (.float .negInf) = .ok 0xFF800000#32 ∧
    dataWord names (.float .nan) = .ok 0x7FC00000#32 ∧ dataWord names (.float .negZero) = .ok 0x80000000#32
end

