-- ==== Sys2Proof/Laws/Csr.lean ====
section
/-! SUPPORT. The control-register map, and the accessors over it. -/

namespace Sys2Proof.Machine

/-- Every register is at its address. -/
theorem csrAt_csrAddress (r : Csr) : csrAt (csrAddress r) = some r := by
  cases r with
  | ptLevelOffset m => revert m; decide
  | _ => rfl

/-- Above `HALT` nothing is mapped. -/
theorem csrAt_high {a : Nat} (h : 0x23 ≤ a) : csrAt a = none := by
  simp only [csrAt]
  repeat rw [if_neg (by omega)]
  rw [dif_neg (by omega)]

/-- The map and the addresses are inverse to each other. -/
theorem csrAt_eq_some {a : Nat} {r : Csr} : csrAt a = some r ↔ a = csrAddress r := by
  constructor
  · intro h
    rcases Nat.lt_or_ge a 0x23 with ha | ha
    · have all : ∀ b : Fin 0x23, (csrAt b.val).all (fun q => b.val = csrAddress q) = true := by decide
      have hr := all ⟨a, ha⟩
      rw [h] at hr
      exact of_decide_eq_true hr
    · rw [csrAt_high ha] at h; cases h
  · rintro rfl; exact csrAt_csrAddress r

theorem csrAddress_lt (r : Csr) : csrAddress r < 256 := by
  cases r with
  | ptLevelOffset m => have := m.isLt; simp only [csrAddress]; omega
  | _ => decide

/-- A read-only register reads the same in every state (10_state.md R31). -/
theorem readCsr_ro {r : Csr} (h : csrAccess r = .ro) (p : Params) (s t : State) : readCsr p r s = readCsr p r t := by
  cases r <;> first | rfl | cases h

/-- A write of a read-only register writes nothing (44_csr.md R186). -/
theorem writeCsr_ro {r : Csr} (h : csrAccess r = .ro) (v : Word) (s : State) : writeCsr r v s = s := by
  cases r <;> first | rfl | cases h

/-- The bits of ERRSTAT: the log at 10:1, else 0 (10_state.md R46). -/
theorem errstatWord_getLsbD (s : State) (k : Nat) :
    (errstatWord s).getLsbD k = (decide (1 ≤ k ∧ k ≤ 10) && s.cause.getLsbD (k - 1)) := by
  by_cases h : k < 32
  · by_cases h0 : k < 1
    · have : k = 0 := by omega
      subst this
      simp [errstatWord]
    · by_cases h1 : k ≤ 10
      · simp [errstatWord, h, h0, h1]
        omega
      · have : s.cause.getLsbD (k - 1) = false := BitVec.getLsbD_of_ge _ _ (by omega)
        simp [errstatWord, BitVec.getLsbD_shiftLeft, BitVec.getLsbD_setWidth, this]
  · have : ¬k ≤ 10 := by omega
    simp [BitVec.getLsbD_of_ge (errstatWord s) k (by omega), this]

end Sys2Proof.Machine
end

