-- ==== Sys2Proof/Laws/Assembler.lean ====
section
/-! SUPPORT. When each part of the assembler answers, and what: operand lists, the two shapes of line, the CSR field. -/

namespace Sys2Proof.Machine

/-- The words of an operand list, one for each operand. -/
theorem dataWords_eq_ok {names : HostNames} {os : List AsmOperand} {ws : List Word} :
    dataWords names os = .ok ws ↔ List.Forall₂ (fun o w => dataWord names o = .ok w) os ws := by
  induction os generalizing ws with
  | nil => simp [dataWords, eq_comm]
  | cons o os ih =>
    rw [dataWords, List.forall₂_cons_left_iff]
    cases h1 : dataWord names o with
    | error e => simp
    | ok w =>
      cases h2 : dataWords names os with
      | error e =>
        simp only [reduceCtorEq, false_iff]
        rintro ⟨b, u, -, hu, -⟩
        rw [h2] at ih
        exact absurd (ih.2 hu) (by simp)
      | ok us =>
        simp only [Except.ok.injEq, ← ih, h2]
        exact eq_comm.trans (by simp)

/-- The three operand words: at most `most` operands, an absent word 0 (R89). -/
theorem operandWords_eq_ok {names : HostNames} {most : Nat} {os : List AsmOperand} {t : Word × Word × Word} :
    operandWords names most os = .ok t ↔ os.length ≤ most ∧ ∃ ws, dataWords names os = .ok ws ∧
      t = (ws.getD 0 0#32, ws.getD 1 0#32, ws.getD 2 0#32) := by
  unfold operandWords
  split
  · simp; omega
  · cases h : dataWords names os with
    | error e => simp
    | ok ws => simp [eq_comm]; omega

/-- A line of a function unit. -/
theorem assembleData_eq_ok {names : HostNames} {most : Nat} {os : List AsmOperand} {make : Word → Word → Word → Instr}
    {i : Instr} :
    assembleData names most os make = .ok i ↔ os.length ≤ most ∧ ∃ ws, dataWords names os = .ok ws ∧
      i = make (ws.getD 0 0#32) (ws.getD 1 0#32) (ws.getD 2 0#32) := by
  unfold assembleData
  cases h : operandWords names most os with
  | error e =>
    simp only [reduceCtorEq, false_iff]
    rintro ⟨hl, ws, hw, -⟩
    rw [operandWords_eq_ok.2 ⟨hl, ws, hw, rfl⟩] at h
    cases h
  | ok t =>
    obtain ⟨hl, ws, hw, rfl⟩ := operandWords_eq_ok.1 h
    simp [hl, hw, eq_comm]

/-- A line of the control unit. -/
theorem assembleCsr_eq_ok {names : HostNames} {most : Nat} {os : List AsmOperand} {make : Nat → Word → Instr} {i : Instr} :
    assembleCsr names most os make = .ok i ↔ ∃ o a rest ws, os = o :: rest ∧ rest.length ≤ most ∧ csrNumber o = .ok a ∧
      dataWords names rest = .ok ws ∧ i = make a (ws.getD 0 0#32) := by
  unfold assembleCsr
  cases os with
  | nil => simp
  | cons o rest =>
    cases h : csrNumber o with
    | error e => simp [h]
    | ok a =>
      cases h2 : operandWords names most rest with
      | error e =>
        simp only [h, h2, reduceCtorEq, false_iff]
        rintro ⟨o', a', rest', ws, he, hl, -, hw, -⟩
        injection he with _ he
        subst he
        rw [operandWords_eq_ok.2 ⟨hl, ws, hw, rfl⟩] at h2
        cases h2
      | ok t =>
        obtain ⟨hl, ws, hw, rfl⟩ := operandWords_eq_ok.1 h2
        constructor
        · intro hi
          simp only [h, h2, Except.ok.injEq] at hi
          exact ⟨o, a, rest, ws, rfl, hl, h, hw, hi.symm⟩
        · rintro ⟨o', a', rest', ws', he, -, ha, hw', rfl⟩
          injection he with e1 e2
          subst e1 e2
          rw [h] at ha
          rw [hw] at hw'
          simp only [Except.ok.injEq] at ha hw'
          subst ha hw'
          simp [h, h2]

/-- A CSR operand is an address of the CSR space. -/
theorem csrNumber_lt {o : AsmOperand} {a : Nat} (h : csrNumber o = .ok a) : a < 256 := by
  unfold csrNumber at h
  split at h
  · injection h with h; rw [← h]; exact csrAddress_lt _
  · split at h
    · injection h with h; omega
    · cases h
  all_goals cases h

/-- The command word of CSRR and CSRW as a sum (R185, R186). -/
theorem withCsrField_eq_add {a : Nat} (h : a < 256) :
    withCsrField 0x00000010#32 a = BitVec.ofNat 32 (0x10 + a * 2 ^ 16) ∧
    withCsrField 0x00000011#32 a = BitVec.ofNat 32 (0x11 + a * 2 ^ 16) := by
  have key : ∀ p : Nat, p < 2 ^ 16 → (BitVec.ofNat 32 p ||| (BitVec.ofNat 32 a <<< 16)).toNat = p + a * 2 ^ 16 := by
    intro p hp
    rw [BitVec.toNat_or, BitVec.toNat_shiftLeft, BitVec.toNat_ofNat, BitVec.toNat_ofNat, Nat.mod_eq_of_lt (by omega),
      Nat.mod_eq_of_lt (by omega : a < 2 ^ 32), Nat.mod_eq_of_lt (by rw [Nat.shiftLeft_eq]; omega), Nat.lor_comm,
      ← Nat.shiftLeft_add_eq_or_of_lt hp, Nat.shiftLeft_eq]
    omega
  constructor <;>
    (apply BitVec.eq_of_toNat_eq
     rw [BitVec.toNat_ofNat, Nat.mod_eq_of_lt (by omega)]
     exact key _ (by decide))

/-- `assemble` is `encode` of the line's instruction. -/
theorem assemble_eq_ok {p : Params} {names : HostNames} {l : AsmLine} {c : Command} :
    assemble p names l = .ok c ↔ ∃ i, assembleInstr p names l = .ok i ∧ encode i = c := by
  unfold assemble
  cases assembleInstr p names l <;> simp

end Sys2Proof.Machine
end

