-- ==== Sys2Proof/Laws/Binary32.lean ====
section
/-! SUPPORT. What the binary32 definitions do: the order of valid footprints is that of their patterns, rounding is
monotone and passes no magnitude of 24 significant bits, adding a zero keeps a value, addition and the clamp are monotone. -/
namespace Sys2Proof.Machine

theorem exponentField_eq (w : Word) : exponentField w = w.toNat / 2 ^ 23 % 256 := by
  simp [exponentField, BitVec.extractLsb'_toNat, Nat.shiftRight_eq_div_pow]

theorem fractionField_eq (w : Word) : fractionField w = w.toNat % 2 ^ 23 := by
  simp [fractionField, BitVec.extractLsb'_toNat]

theorem msb_eq_decide (w : Word) : w.msb = decide (2 ^ 31 ≤ w.toNat) := by
  simp [BitVec.msb_eq_decide]

/-- The valid footprints are the patterns from 1 to that of +inf. -/
theorem validFootprint_iff_toNat (w : Word) :
    validFootprint w = true ↔ 0 < w.toNat ∧ w.toNat ≤ 0x7F800000 := by
  have h := w.isLt
  have h0 : w = 0#32 ↔ w.toNat = 0 := by rw [← BitVec.toNat_inj]; rfl
  simp only [validFootprint, msb_eq_decide, exponentField_eq, fractionField_eq, h0, Bool.and_eq_true,
    Bool.not_eq_true', decide_eq_false_iff_not, decide_eq_true_eq, ne_eq]
  omega

/-- The magnitude of the pattern of a finite value without its sign bit. -/
def patternMag (n : Nat) : Nat := if n / 2 ^ 23 = 0 then n else (2 ^ 23 + n % 2 ^ 23) * 2 ^ (n / 2 ^ 23 - 1)

/-- The value of the pattern of a positive finite value or of +0. -/
theorem f32_of_pattern (w : Word) (h : w.toNat < 0x7F800000) : f32 w = .finite false (patternMag w.toNat) := by
  have hm : w.msb = false := by rw [msb_eq_decide]; exact decide_eq_false (by omega)
  have he : w.toNat / 2 ^ 23 % 256 = w.toNat / 2 ^ 23 := Nat.mod_eq_of_lt (by omega)
  have h255 : w.toNat / 2 ^ 23 ≠ 255 := by omega
  simp only [f32, exponentField_eq, fractionField_eq, he, hm, patternMag, h255, if_false]
  split
  · rename_i h0; rw [Nat.mod_eq_of_lt (by omega)]
  · rfl

/-- Larger patterns are larger values. -/
theorem patternMag_strictMono : StrictMono patternMag := by
  apply strictMono_nat_of_lt_succ
  intro n
  have hp : ∀ e : Nat, e ≠ 0 → 2 ^ e = 2 * 2 ^ (e - 1) := by
    intro e he; rw [← Nat.pow_succ']; congr 1; omega
  simp only [patternMag]
  by_cases h0 : n / 2 ^ 23 = 0
  · by_cases h1 : (n + 1) / 2 ^ 23 = 0
    · simp only [h0, h1, if_true]; omega
    · have : n + 1 = 2 ^ 23 := by omega
      rw [if_pos h0, if_neg h1, this]; norm_num; omega
  · by_cases hs : (n + 1) / 2 ^ 23 = n / 2 ^ 23
    · have hr : (n + 1) % 2 ^ 23 = n % 2 ^ 23 + 1 := by omega
      rw [if_neg h0, hs, if_neg h0, hr]
      exact Nat.mul_lt_mul_of_pos_right (by omega) (by positivity)
    · have h1 : (n + 1) / 2 ^ 23 = n / 2 ^ 23 + 1 := by omega
      have hr : (n + 1) % 2 ^ 23 = 0 := by omega
      have hq : n % 2 ^ 23 = 2 ^ 23 - 1 := by omega
      rw [if_neg h0, h1, if_neg (by omega), hr, hq, Nat.add_sub_cancel, hp _ h0]
      have : 0 < 2 ^ (n / 2 ^ 23 - 1) := by positivity
      omega

/-- The pattern of +inf. -/
theorem f32_inf : f32 0x7F800000#32 = .inf false := by decide

theorem F32.le_refl_of_ne_nan (x : F32) (h : x ≠ .nan) : x.le x = true := by
  rcases x with _ | s | ⟨s, m⟩
  · exact absurd rfl h
  · cases s <;> rfl
  · simp [F32.le]

/-- The order is transitive. -/
theorem F32.le_trans {x y z : F32} (h1 : x.le y = true) (h2 : y.le z = true) : x.le z = true := by
  rcases x with _ | s | ⟨s, a⟩ <;> rcases y with _ | t | ⟨t, b⟩ <;> rcases z with _ | u | ⟨u, c⟩ <;>
    first
    | (simp [F32.le] at h1; done)
    | (simp [F32.le] at h2; done)
    | (simp only [F32.le, decide_eq_true_eq] at *; omega)
    | (cases s <;> cases t <;> cases u <;> simp_all [F32.le])

/-- It is total on values that are no NaN. -/
theorem F32.le_total_of_ne_nan {x y : F32} (hx : x ≠ .nan) (hy : y ≠ .nan) (h : x.le y = false) : y.le x = true := by
  rcases x with _ | s | ⟨s, a⟩ <;> rcases y with _ | t | ⟨t, b⟩ <;>
    first
    | exact absurd rfl hx
    | exact absurd rfl hy
    | (simp only [F32.le, decide_eq_false_iff_not, decide_eq_true_eq] at *; omega)
    | (cases s <;> cases t <;> simp_all [F32.le])

theorem F32.ne_nan_of_le_left {x y : F32} (h : x.le y = true) : x ≠ .nan := by rintro rfl; simp [F32.le] at h
theorem F32.ne_nan_of_le_right {x y : F32} (h : x.le y = true) : y ≠ .nan := by rintro rfl; cases x <;> simp [F32.le] at h

/-- Valid footprints are ordered as their patterns. -/
theorem f32_le_iff_toNat {x y : Word} (hx : validFootprint x = true) (hy : validFootprint y = true) :
    (f32 x).le (f32 y) = true ↔ x.toNat ≤ y.toNat := by
  rw [validFootprint_iff_toNat] at hx hy
  by_cases h1 : x.toNat = 0x7F800000
  · have e1 : x = 0x7F800000#32 := BitVec.eq_of_toNat_eq h1
    by_cases h2 : y.toNat = 0x7F800000
    · have e2 : y = 0x7F800000#32 := BitVec.eq_of_toNat_eq h2
      subst e1 e2; decide
    · rw [e1, f32_inf, f32_of_pattern y (by omega)]; simp [F32.le]; omega
  · by_cases h2 : y.toNat = 0x7F800000
    · have e2 : y = 0x7F800000#32 := BitVec.eq_of_toNat_eq h2
      rw [e2, f32_inf, f32_of_pattern x (by omega)]; simp [F32.le]; omega
    · rw [f32_of_pattern x (by omega), f32_of_pattern y (by omega)]
      simp only [F32.le, F32.units, decide_eq_true_eq, Nat.cast_le]
      exact patternMag_strictMono.le_iff_le

/-! ## Rounding -/

theorem roundMag_of_lt {n : Nat} (h : n < 2 ^ 24) : roundMag n = n := if_pos h

/-- Where rounding happens: the cell of `n` and the choice made in it. -/
theorem roundMag_of_ge {n : Nat} (h : 2 ^ 24 ≤ n) :
    ∃ sh q r, 1 ≤ sh ∧ sh = n.log2 - 23 ∧ n = q * 2 ^ sh + r ∧ r < 2 ^ sh ∧ 2 ^ 23 ≤ q ∧ q < 2 ^ 24 ∧
      roundMag n = if 2 ^ (sh - 1) < r ∨ (r = 2 ^ (sh - 1) ∧ q % 2 = 1) then (q + 1) * 2 ^ sh else q * 2 ^ sh := by
  have hl : 24 ≤ n.log2 := (Nat.le_log2 (by omega)).2 h
  have hlt := Nat.lt_log2_self (n := n)
  have hle := Nat.log2_self_le (n := n) (by omega)
  have e1 : 2 ^ 23 * 2 ^ (n.log2 - 23) = 2 ^ n.log2 := by rw [← pow_add]; congr 1; omega
  have e2 : 2 ^ 24 * 2 ^ (n.log2 - 23) = 2 ^ (n.log2 + 1) := by rw [← pow_add]; congr 1; omega
  refine ⟨n.log2 - 23, n / 2 ^ (n.log2 - 23), n % 2 ^ (n.log2 - 23), by omega, rfl, ?_, ?_, ?_, ?_, ?_⟩
  · rw [Nat.mul_comm]; exact (Nat.div_add_mod _ _).symm
  · exact Nat.mod_lt _ (by positivity)
  · rw [Nat.le_div_iff_mul_le (by positivity), e1]; exact hle
  · rw [Nat.div_lt_iff_lt_mul (by positivity), e2]; exact hlt
  · exact if_neg (by omega)

/-- A magnitude of at most 24 significant bits lies on neither side inside the cell of a number. -/
theorem cell_has_no_inner (sh q q' e' : Nat) (h1 : 1 ≤ sh) (hq : 2 ^ 23 ≤ q) (hq' : q' ≤ 2 ^ 24) :
    q' * 2 ^ e' ≤ q * 2 ^ sh ∨ (q + 1) * 2 ^ sh ≤ q' * 2 ^ e' := by
  by_cases he : sh ≤ e'
  · have e : q' * 2 ^ e' = (q' * 2 ^ (e' - sh)) * 2 ^ sh := by rw [mul_assoc, ← pow_add]; congr 2; omega
    rw [e]
    rcases Nat.lt_or_ge q (q' * 2 ^ (e' - sh)) with h | h
    · right; exact Nat.mul_le_mul_right _ h
    · left; exact Nat.mul_le_mul_right _ h
  · left
    have e : 2 ^ 24 * 2 ^ (sh - 1) = 2 ^ 23 * 2 ^ sh := by rw [← pow_add, ← pow_add]; congr 1; omega
    calc q' * 2 ^ e' ≤ 2 ^ 24 * 2 ^ (sh - 1) := Nat.mul_le_mul hq' (Nat.pow_le_pow_right (by omega) (by omega))
      _ = 2 ^ 23 * 2 ^ sh := e
      _ ≤ q * 2 ^ sh := Nat.mul_le_mul_right _ hq

/-- Rounding does not pass a magnitude of at most 24 significant bits that lies above. -/
theorem roundMag_le_of_le (n q' e' : Nat) (hq' : q' ≤ 2 ^ 24) (h : n ≤ q' * 2 ^ e') : roundMag n ≤ q' * 2 ^ e' := by
  rcases Nat.lt_or_ge n (2 ^ 24) with hn | hn
  · rwa [roundMag_of_lt hn]
  · obtain ⟨sh, q, r, h1, -, he, hr, hq, -, hround⟩ := roundMag_of_ge hn
    have hp : 0 < 2 ^ (sh - 1) := by positivity
    rcases cell_has_no_inner sh q q' e' h1 hq hq' with hc | hc
    · have hr0 : r = 0 := by omega
      rw [hround, if_neg (by omega)]; omega
    · rw [hround]; split <;> [exact hc; omega]

/-- Nor one that lies below. -/
theorem le_roundMag_of_le (n q' e' : Nat) (hq' : q' ≤ 2 ^ 24) (h : q' * 2 ^ e' ≤ n) : q' * 2 ^ e' ≤ roundMag n := by
  rcases Nat.lt_or_ge n (2 ^ 24) with hn | hn
  · rwa [roundMag_of_lt hn]
  · obtain ⟨sh, q, r, h1, -, he, hr, hq, -, hround⟩ := roundMag_of_ge hn
    have e1 : (q + 1) * 2 ^ sh = q * 2 ^ sh + 2 ^ sh := by ring
    rcases cell_has_no_inner sh q q' e' h1 hq hq' with hc | hc
    · rw [hround]; split <;> omega
    · omega

/-- A magnitude of at most 24 significant bits is its own rounding. -/
theorem roundMag_of_short (q e : Nat) (hq : q ≤ 2 ^ 24) : roundMag (q * 2 ^ e) = q * 2 ^ e :=
  Nat.le_antisymm (roundMag_le_of_le _ q e hq (Nat.le_refl _)) (le_roundMag_of_le _ q e hq (Nat.le_refl _))

/-- A rounded magnitude has at most 24 significant bits. -/
theorem roundMag_short (n : Nat) : ∃ q e, q ≤ 2 ^ 24 ∧ roundMag n = q * 2 ^ e := by
  rcases Nat.lt_or_ge n (2 ^ 24) with hn | hn
  · exact ⟨n, 0, by omega, by rw [roundMag_of_lt hn]; simp⟩
  · obtain ⟨sh, q, r, -, -, -, -, -, hq, hround⟩ := roundMag_of_ge hn
    rw [hround]; split
    · exact ⟨q + 1, sh, by omega, rfl⟩
    · exact ⟨q, sh, by omega, rfl⟩

/-- Rounding is monotone. -/
theorem roundMag_mono {n m : Nat} (h : n ≤ m) : roundMag n ≤ roundMag m := by
  rcases Nat.lt_or_ge n (2 ^ 24) with hn | hn
  · have := le_roundMag_of_le m n 0 (by omega) (by simpa using h)
    rw [roundMag_of_lt hn]; simpa using this
  · obtain ⟨sh, q, r, h1, hsh, he, hr, hq, hq2, hround⟩ := roundMag_of_ge hn
    by_cases hc : (q + 1) * 2 ^ sh ≤ m
    · have a := roundMag_le_of_le n (q + 1) sh (by omega) (by rw [he]; have : (q + 1) * 2 ^ sh = q * 2 ^ sh + 2 ^ sh := by ring
                                                              omega)
      exact a.trans (le_roundMag_of_le m (q + 1) sh (by omega) hc)
    · obtain ⟨sh', q', r', h1', hsh', he', hr', hq', hq2', hround'⟩ := roundMag_of_ge (hn.trans h)
      have hs : sh' = sh := by
        have a : n.log2 ≤ m.log2 := (Nat.le_log2 (by omega)).2 ((Nat.log2_self_le (by omega)).trans h)
        have b : m.log2 < n.log2 + 1 := by
          rw [Nat.log2_lt (by omega)]
          have l := Nat.lt_log2_self (n := n)
          have l24 : 24 ≤ n.log2 := (Nat.le_log2 (by omega)).2 hn
          have : 2 ^ 24 * 2 ^ sh = 2 ^ (n.log2 + 1) := by rw [← pow_add]; congr 1; omega
          have : (q + 1) * 2 ^ sh ≤ 2 ^ 24 * 2 ^ sh := Nat.mul_le_mul_right _ hq2
          omega
        omega
      subst hs
      have hqq : q' = q := by
        have e1 : (q + 1) * 2 ^ sh' = q * 2 ^ sh' + 2 ^ sh' := by ring
        have e2 : (q' + 1) * 2 ^ sh' = q' * 2 ^ sh' + 2 ^ sh' := by ring
        have l1 : q' < q + 1 := by
          by_contra hx
          have := Nat.mul_le_mul_right (2 ^ sh') (Nat.le_of_not_lt hx); omega
        have l2 : q < q' + 1 := by
          by_contra hx
          have := Nat.mul_le_mul_right (2 ^ sh') (Nat.le_of_not_lt hx); omega
        omega
      subst hqq
      rw [hround, hround']
      split <;> split <;> omega

/-! ## Finite values and sums -/

/-- A pattern has at most 24 significant bits. -/
theorem patternMag_short (u : Nat) : ∃ q e, q < 2 ^ 24 ∧ patternMag u = q * 2 ^ e := by
  simp only [patternMag]; split
  · exact ⟨u, 0, by omega, by simp⟩
  · exact ⟨_, _, by omega, rfl⟩

/-- So it is its own rounding. -/
theorem roundMag_patternMag (u : Nat) : roundMag (patternMag u) = patternMag u := by
  obtain ⟨q, e, h, h2⟩ := patternMag_short u
  rw [h2]; exact roundMag_of_short q e (by omega)

/-- A finite pattern does not overflow. -/
theorem patternMag_lt (u : Nat) (h : u < 0x7F800000) : patternMag u < overflowUnits := by
  have a : patternMag u < patternMag 0x7F800000 := patternMag_strictMono h
  have b : patternMag 0x7F800000 ≤ overflowUnits := by decide
  omega

/-- The value of a finite word, by its sign bit and the other bits. -/
theorem f32_of_isFinite (w : Word) (hf : (f32 w).isFinite = true) : f32 w = .finite w.msb (patternMag (w.toNat % 2 ^ 31)) ∧ w.toNat % 2 ^ 31 < 0x7F800000 := by
  have h255 : w.toNat / 2 ^ 23 % 256 ≠ 255 := by
    intro h; simp only [f32, exponentField_eq, fractionField_eq, h, if_true] at hf; split at hf <;> simp [F32.isFinite] at hf
  constructor
  · simp only [f32, exponentField_eq, fractionField_eq, h255, if_false, patternMag, show w.toNat % 2 ^ 31 / 2 ^ 23 = w.toNat / 2 ^ 23 % 256 by omega, show w.toNat % 2 ^ 31 % 2 ^ 23 = w.toNat % 2 ^ 23 by omega]
    split
    · congr 1; omega
    · rfl
  · omega

theorem F32.units_finite (n m) : (F32.finite n m).units = if n then -(m : Int) else m := by cases n <;> rfl

theorem roundMag_zero : roundMag 0 = 0 := rfl

/-- Adding a zero keeps a value that binary32 represents; only the sign of a zero may change. -/
theorem addFinite_zero_right (n : Bool) (m : Nat) (z : Bool) (hr : roundMag m = m) (ho : m < overflowUnits) :
    addFinite n m z 0 = .finite (if m = 0 then n && z else n) m := by
  simp only [addFinite, F32.units_finite]
  by_cases hm : m = 0
  · subst hm; cases n <;> cases z <;> rfl
  · have : (if z = true then -((0 : Nat) : Int) else ((0 : Nat) : Int)) = 0 := by cases z <;> rfl
    rw [this, Int.add_zero, if_neg (by cases n <;> simp <;> omega), if_neg hm]
    have e : (if n = true then -(m : Int) else (m : Int)).natAbs = m := by cases n <;> simp
    rw [roundFinite, e, hr, if_neg (by omega)]
    congr 1; cases n <;> simp; omega

/-- Rounding a sum keeps the order of the sums. -/
theorem roundSum_le (v v' : Int) (z z' : Bool) (h : v ≤ v') :
    (if v = 0 then F32.finite z 0 else roundFinite (decide (v < 0)) v.natAbs).le
    (if v' = 0 then F32.finite z' 0 else roundFinite (decide (v' < 0)) v'.natAbs) = true := by
  have form : ∀ (u : Int) (zz : Bool), ∃ r : Nat, r = roundMag u.natAbs ∧ 
     (((if u = 0 then F32.finite zz 0 else roundFinite (decide (u < 0)) u.natAbs) = .inf (decide (u < 0)) ∧ overflowUnits ≤ r ∧ u ≠ 0) ∨ 
     ((if u = 0 then F32.finite zz 0 else roundFinite (decide (u < 0)) u.natAbs).units = (if u < 0 then -(r : Int) else r) ∧ r < overflowUnits ∧ ∃ s m, (if u = 0 then F32.finite zz 0 else roundFinite (decide (u < 0)) u.natAbs) = .finite s m)) := by
    intro u zz
    refine ⟨_, rfl, ?_⟩
    by_cases h0 : u = 0
    · subst h0; right; simp [roundMag_zero, F32.units_finite]; exact Nat.mul_pos (Nat.two_pow_pos 128) (Nat.two_pow_pos 149)
    · rw [if_neg h0, roundFinite]
      split
      · left; exact ⟨rfl, ‹_›, h0⟩
      · right; exact ⟨by rw [F32.units_finite]; simp, by omega, _, _, rfl⟩
  obtain ⟨r, hr, h1⟩ := form v z
  obtain ⟨r', hr', h2⟩ := form v' z'
  have mono1 : 0 ≤ v → r ≤ r' := fun h0 => by rw [hr, hr']; exact roundMag_mono (by omega)
  have mono2 : v' < 0 → r' ≤ r := fun h0 => by rw [hr, hr']; exact roundMag_mono (by omega)
  rcases h1 with ⟨e1, o1, n1⟩ | ⟨e1, o1, s1, m1, f1⟩ <;> rcases h2 with ⟨e2, o2, n2⟩ | ⟨e2, o2, s2, m2, f2⟩
  · rw [e1, e2]
    by_cases a : v < 0
    · simp [a, F32.le]
    · simp [a, show ¬ v' < 0 by omega, F32.le]
  · rw [e1, f2]
    have a : v < 0 := by by_contra hx; have := mono1 (by omega); omega
    simp [a, F32.le]
  · rw [e2, f1]
    have a : ¬ v' < 0 := by intro hx; have := mono2 hx; omega
    simp [a, F32.le]
  · rw [f1] at e1 ⊢; rw [f2] at e2 ⊢
    simp only [F32.le, decide_eq_true_eq]
    rw [e1, e2]
    by_cases a : v' < 0
    · rw [if_pos (by omega), if_pos a]; have := mono2 a; omega
    · rw [if_neg a]; split
      · omega
      · have := mono1 (by omega); omega

/-- Addition of a finite value is monotone. -/
theorem addFinite_le {n a n' a'} (m b) (h : (F32.finite n a).le (F32.finite n' a') = true) :
    (addFinite n a m b).le (addFinite n' a' m b) = true := by
  simp only [F32.le, decide_eq_true_eq] at h
  exact roundSum_le _ _ _ _ (by omega)

/-- The clamp is monotone. -/
theorem clampLevel_mono {x y : F32} (h : x.le y = true) : clampLevel x ≤ clampLevel y := by
  have hp : oneUnits > 0 := by decide
  have l7 : ∀ a b : Nat, a ≤ b → (if 7 * oneUnits ≤ a then 7 else a / oneUnits) ≤ (if 7 * oneUnits ≤ b then 7 else b / oneUnits) := by
    intro a b hab
    by_cases ha : 7 * oneUnits ≤ a
    · rw [if_pos ha, if_pos (by omega)]
    · rw [if_neg ha]
      have : a / oneUnits < 7 := by rw [Nat.div_lt_iff_lt_mul hp]; omega
      split
      · omega
      · exact Nat.div_le_div_right hab
  have l8 : ∀ a : Nat, (if 7 * oneUnits ≤ a then 7 else a / oneUnits) ≤ 7 := by
    intro a; split
    · omega
    · have : a / oneUnits < 7 := by rw [Nat.div_lt_iff_lt_mul hp]; omega
      omega
  rcases x with _ | s | ⟨s, a⟩ <;> rcases y with _ | t | ⟨t, b⟩
  · simp [clampLevel]
  · simp [clampLevel]
  · simp [clampLevel]
  · simp [F32.le] at h
  · cases s <;> cases t <;> simp_all [clampLevel, F32.le]
  · cases s <;> cases t <;> simp_all [clampLevel, F32.le]
  · simp [F32.le] at h
  · cases s <;> cases t <;> simp_all [clampLevel, F32.le]
  · cases s <;> cases t
    · simp only [clampLevel]; apply l7; have h' : (F32.finite false a).units ≤ (F32.finite false b).units := of_decide_eq_true h
      simp only [F32.units] at h'; omega
    · have h' : (F32.finite false a).units ≤ (F32.finite true b).units := of_decide_eq_true h
      simp only [F32.units] at h'; have : a = 0 := by omega
      subst this; simp [clampLevel, oneUnits]
    · simp [clampLevel]
    · simp [clampLevel]

/-- The clamped level is at most 7. -/
theorem clampLevel_le (x : F32) : clampLevel x ≤ 7 := by
  have hp : oneUnits > 0 := by decide
  rcases x with _ | s | ⟨s, a⟩
  · simp [clampLevel]
  · cases s <;> simp [clampLevel]
  · cases s
    · simp only [clampLevel]; split
      · omega
      · have : a / oneUnits < 7 := by rw [Nat.div_lt_iff_lt_mul hp]; omega
        omega
    · simp [clampLevel]

/-- The level of a sum is monotone in its left operand, NaN sums included. -/
theorem clampLevel_fadd_mono {u v : F32} (c : F32) (h : u.le v = true) : clampLevel (fadd u c) ≤ clampLevel (fadd v c) := by
  rcases c with _ | t | ⟨t, c⟩
  · cases u <;> cases v <;> simp [fadd, clampLevel]
  · rcases u with _ | s | ⟨s, a⟩ <;> rcases v with _ | s' | ⟨s', b⟩ <;> (try simp [F32.le] at h) <;> cases t <;> (try cases s) <;> (try cases s') <;> simp_all [fadd, clampLevel]
  · rcases u with _ | s | ⟨s, a⟩ <;> rcases v with _ | s' | ⟨s', b⟩
    · simp [F32.le] at h
    · simp [F32.le] at h
    · simp [F32.le] at h
    · simp [F32.le] at h
    · exact clampLevel_mono h
    · cases s
      · simp [F32.le] at h
      · simp [fadd, clampLevel]
    · simp [F32.le] at h
    · cases s'
      · exact clampLevel_le _
      · simp [F32.le] at h
    · exact clampLevel_mono (addFinite_le _ _ h)

/-- A word is its sign bit and the other bits. -/
theorem toNat_eq_sign_add (w : Word) : w.toNat = (if w.msb then 2 ^ 31 else 0) + w.toNat % 2 ^ 31 := by
  have h := w.isLt
  rw [msb_eq_decide]
  by_cases hb : 2 ^ 31 ≤ w.toNat
  · rw [decide_eq_true hb, if_pos rfl]; omega
  · rw [decide_eq_false hb, if_neg (by simp)]; omega

/-- Two words with one finite value are one word. -/
theorem f32_finite_inj {v w : Word} (h : f32 v = f32 w) (hf : (f32 v).isFinite = true) : v = w := by
  obtain ⟨a1, -⟩ := f32_of_isFinite v hf
  obtain ⟨b1, -⟩ := f32_of_isFinite w (h ▸ hf)
  rw [a1, b1] at h
  injection h with hs hm
  apply BitVec.eq_of_toNat_eq
  rw [toNat_eq_sign_add v, toNat_eq_sign_add w, hs, patternMag_strictMono.injective hm]

/-- A magnitude that is its own rounding is a significand of at most 24 bits at its exponent. -/
theorem mag_of_roundMag_eq {n : Nat} (h : roundMag n = n) : n = n / 2 ^ (n.log2 - 23) * 2 ^ (n.log2 - 23) := by
  rcases Nat.lt_or_ge n (2 ^ 24) with hn | hn
  · have : n.log2 - 23 = 0 := by
      rcases Nat.eq_zero_or_pos n with rfl | hp
      · decide
      · have := (Nat.log2_lt (by omega)).2 hn; omega
    rw [this]; simp
  · obtain ⟨sh, q, r, h1, hsh, he, hr, -, -, hround⟩ := roundMag_of_ge hn
    have hs : (q + 1) * 2 ^ sh = q * 2 ^ sh + 2 ^ sh := by ring
    have hr0 : r = 0 := by rw [h] at hround; split at hround <;> omega
    rw [← hsh, he, hr0, Nat.add_zero, Nat.mul_div_cancel _ (by positivity)]

/-- The pattern of a representable magnitude: `toWord` without its sign. -/
theorem patternMag_toWord {n : Nat} (h : roundMag n = n) :
    patternMag ((n.log2 - 23) * 2 ^ 23 + n / 2 ^ (n.log2 - 23)) = n := by
  rcases Nat.lt_or_ge n (2 ^ 23) with hn | hn
  · have : n.log2 - 23 = 0 := by
      rcases Nat.eq_zero_or_pos n with rfl | hp
      · decide
      · have := (Nat.log2_lt (by omega)).2 (show n < 2 ^ 24 by omega); omega
    rw [this, patternMag, if_pos (by simp; omega)]; simp
  · have hm := mag_of_roundMag_eq h
    have hl : 23 ≤ n.log2 := (Nat.le_log2 (by omega)).2 hn
    have lo : 2 ^ 23 ≤ n / 2 ^ (n.log2 - 23) := by
      rw [Nat.le_div_iff_mul_le (by positivity), ← pow_add, show 23 + (n.log2 - 23) = n.log2 by omega]
      exact Nat.log2_self_le (by omega)
    have hi : n / 2 ^ (n.log2 - 23) < 2 ^ 24 := by
      rw [Nat.div_lt_iff_lt_mul (by positivity), ← pow_add, show 24 + (n.log2 - 23) = n.log2 + 1 by omega]
      exact Nat.lt_log2_self
    generalize n.log2 - 23 = sh at *
    generalize n / 2 ^ sh = q at *
    have e1 : (sh * 2 ^ 23 + q) / 2 ^ 23 = sh + 1 := by omega
    have e2 : 2 ^ 23 + (sh * 2 ^ 23 + q) % 2 ^ 23 = q := by omega
    rw [patternMag, e1, if_neg (by omega), e2, Nat.add_sub_cancel, ← hm]

/-- `toWord` is the encoding of a value that binary32 represents. -/
theorem f32_toWord_finite (neg : Bool) {n : Nat} (h : representable n = true) :
    f32 (F32.finite neg n).toWord = .finite neg n := by
  obtain ⟨hr, ho⟩ := of_decide_eq_true h
  have hp := patternMag_toWord hr
  have hlt : (n.log2 - 23) * 2 ^ 23 + n / 2 ^ (n.log2 - 23) < 0x7F800000 := by
    by_contra hge
    have a := patternMag_strictMono.monotone (Nat.le_of_not_lt hge)
    have b : overflowUnits ≤ patternMag 0x7F800000 := by decide
    omega
  generalize hk : (n.log2 - 23) * 2 ^ 23 + n / 2 ^ (n.log2 - 23) = k at *
  have hw : (F32.finite neg n).toWord.toNat = (if neg then 2 ^ 31 else 0) + k := by
    simp only [F32.toWord, hk, BitVec.toNat_ofNat]
    apply Nat.mod_eq_of_lt
    split <;> omega
  have hm : (F32.finite neg n).toWord.msb = neg := by
    rw [msb_eq_decide, hw]; cases neg <;> simp; omega
  have hf : (f32 (F32.finite neg n).toWord).isFinite = true := by
    have : (F32.finite neg n).toWord.toNat / 2 ^ 23 % 256 ≠ 255 := by rw [hw]; split <;> omega
    simp only [f32, exponentField_eq, this, if_false]; split <;> rfl
  rw [(f32_of_isFinite _ hf).1, hm, hw]
  congr 1
  rw [← hp]; congr 1; split <;> omega

/-- The value of a finite word is one that binary32 represents. -/
theorem representable_of_f32 {w : Word} {neg : Bool} {n : Nat} (h : f32 w = .finite neg n) : representable n = true := by
  obtain ⟨e, hl⟩ := f32_of_isFinite w (by rw [h]; rfl)
  rw [h] at e
  injection e with _ e
  rw [e]
  exact decide_eq_true ⟨roundMag_patternMag _, patternMag_lt _ hl⟩

/-- `toWord` writes a finite value to the one word that has it. -/
theorem toWord_finite_eq_iff {neg : Bool} {n : Nat} (h : representable n = true) (w : Word) :
    (F32.finite neg n).toWord = w ↔ f32 w = .finite neg n := by
  constructor
  · rintro rfl; exact f32_toWord_finite neg h
  · intro hw
    exact f32_finite_inj ((f32_toWord_finite neg h).trans hw.symm) (by rw [f32_toWord_finite neg h]; rfl)

end Sys2Proof.Machine
end

