-- ==== Sys2Proof/Laws/Decode.lean ====
section
/-! SUPPORT. The fields of a command word, and what the decoder accepts. -/

namespace Sys2Proof

/-- A command word is its five fields (30_encoding.md R81). -/
theorem cmd_eq_fields (w : Word) :
    w = rsv1Field w ++ csrField w ++ rsv0Field w ++ modeField w ++ opField w := by
  apply BitVec.eq_of_getLsbD_eq
  intro k hk
  simp only [rsv1Field, csrField, rsv0Field, modeField, opField, BitVec.getLsbD_append, BitVec.getLsbD_extractLsb']
  repeat' split
  all_goals simp_all
  · rw [show 10 + (k - 8 - 2) = k by omega, BitVec.getLsbD_eq_getElem hk]
  · rw [show 16 + (k - 8 - 2 - 6) = k by omega, BitVec.getLsbD_eq_getElem hk]
  · rw [show 24 + (k - 8 - 2 - 6 - 8) = k by omega, BitVec.getLsbD_eq_getElem hk, decide_eq_true (by omega), Bool.true_and]

/-- Where a command decodes, and to what: the five checks of R86 passed and the row's operands (R82). -/
theorem decode_ok_iff (c : Command) (i : Instr) :
    decode c = .ok i ↔ ∃ op, Opcode.ofBits (opField c.cmd) = some op ∧ rsv1Field c.cmd = 0#8 ∧ rsv0Field c.cmd = 0#6 ∧
      (op = .mipsel → modeField c.cmd ≠ 3#2) ∧ (op ≠ .mipsel → modeField c.cmd = 0#2) ∧
      (isCsrOpcode (opField c.cmd) = false → csrField c.cmd = 0#8) ∧ i = op.instr c := by
  unfold decode
  cases h : Opcode.ofBits (opField c.cmd) with
  | none => simp
  | some op =>
    simp only [Option.some.injEq, exists_eq_left']
    repeat' split
    all_goals simp_all
    all_goals tauto

/-- The opcode column of R85, backwards. -/
theorem opcode_ofBits_iff (b : BitVec 8) (op : Opcode) :
    Opcode.ofBits b = some op ↔ b = match op with
      | .ptaddr => 0x01#8 | .mipsel => 0x02#8 | .fxpack => 0x03#8 | .fxunpz => 0x04#8 | .fxisinv => 0x05#8
      | .ivpack => 0x06#8 | .ivflags => 0x07#8 | .ivid => 0x08#8 | .csrr => 0x10#8 | .csrw => 0x11#8 := by
  revert b
  cases op <;> decide

/-- MIPSEL's three modes. -/
theorem instr_mipsel_cases (c : Command) :
    (modeField c.cmd = 0#2 ∧ Opcode.instr .mipsel c = .mipselAny c.a c.b c.c) ∨
    (modeField c.cmd = 1#2 ∧ Opcode.instr .mipsel c = .mipselEven c.a c.b c.c) ∨
    (modeField c.cmd ≠ 0#2 ∧ modeField c.cmd ≠ 1#2 ∧ Opcode.instr .mipsel c = .mipselOdd c.a c.b c.c) := by
  simp only [Opcode.instr]
  by_cases h0 : modeField c.cmd = 0#2
  · simp [h0]
  · by_cases h1 : modeField c.cmd = 1#2 <;> simp [h0, h1]

end Sys2Proof
end

