-- ==== Sys2Proof/Laws/Flags.lean ====
section
/-! SUPPORT. Cause codes, the status code and the log, one lemma for each. -/

namespace Sys2Proof.Machine

theorem Cause.code_bounds (c : Cause) : 1 ≤ c.code ∧ c.code ≤ 11 := by cases c <;> decide

theorem Cause.isLogged_iff (c : Cause) : c.isLogged = true ↔ c ≠ .halted := by cases c <;> decide

/-- The bits of the log, written out (60_exceptions.md R200, R203). -/
theorem Cause.logBit_eq (c : Cause) : c.logBit = match c with
    | .illegal => 0b1#10 | .ptMip => 0b10#10 | .ptCoord => 0b100#10 | .mipFootprint => 0b1000#10
    | .fxSlice => 0b10000#10 | .fxPacked => 0b100000#10 | .ivFlags => 0b1000000#10 | .ivId => 0b10000000#10
    | .csrAddr => 0b100000000#10 | .csrRo => 0b1000000000#10 | .halted => 0#10 := by
  cases c <;> rfl

/-- A cause sets the bit of its code, and no other. -/
theorem Cause.logBit_getLsbD (c : Cause) (k : Nat) :
    c.logBit.getLsbD k = true ↔ k < 10 ∧ c.code = k + 1 := by
  by_cases hk : k < 10
  · interval_cases k <;> cases c <;> decide
  · simp [BitVec.getLsbD_of_ge c.logBit k (by omega), hk]

@[simp] theorem logCauses_nil (log : BitVec 10) : logCauses [] log = log := rfl

@[simp] theorem logCauses_cons (c : Cause) (cs : List Cause) (log : BitVec 10) :
    logCauses (c :: cs) log = logCauses cs (log ||| c.logBit) := rfl

/-- The log after a cause set holds what it held and the bits of the set. -/
theorem logCauses_getLsbD (cs : List Cause) (log : BitVec 10) (k : Nat) :
    (logCauses cs log).getLsbD k = true ↔ log.getLsbD k = true ∨ (k < 10 ∧ ∃ c ∈ cs, c.code = k + 1) := by
  induction cs generalizing log with
  | nil => simp
  | cons c cs ih =>
    rw [logCauses_cons, ih, BitVec.getLsbD_or, Bool.or_eq_true, Cause.logBit_getLsbD]
    constructor
    · rintro ((h | ⟨hk, h⟩) | ⟨hk, d, hd, h⟩)
      · exact .inl h
      · exact .inr ⟨hk, c, by simp, h⟩
      · exact .inr ⟨hk, d, by simp [hd], h⟩
    · rintro (h | ⟨hk, d, hd, h⟩)
      · exact .inl (.inl h)
      · rcases List.mem_cons.1 hd with rfl | hd
        · exact .inl (.inr ⟨hk, h⟩)
        · exact .inr ⟨hk, d, hd, h⟩

/-- The folded minimum is one of the codes, and at most each of them. -/
theorem foldl_min_code (cs : List Cause) (n : Nat) :
    (cs.foldl (fun n d => min n d.code) n = n ∨ ∃ c ∈ cs, cs.foldl (fun n d => min n d.code) n = c.code) ∧
    cs.foldl (fun n d => min n d.code) n ≤ n ∧ ∀ c ∈ cs, cs.foldl (fun n d => min n d.code) n ≤ c.code := by
  induction cs generalizing n with
  | nil => simp
  | cons c cs ih =>
    obtain ⟨h1, h2, h3⟩ := ih (min n c.code)
    simp only [List.foldl_cons, List.mem_cons]
    refine ⟨?_, by omega, ?_⟩
    · rcases h1 with h1 | ⟨d, hd, h1⟩
      · rcases Nat.le_total n c.code with h | h
        · left; omega
        · right; exact ⟨c, .inl rfl, by omega⟩
      · exact .inr ⟨d, .inr hd, h1⟩
    · rintro d (rfl | hd)
      · omega
      · exact h3 d hd

@[simp] theorem statusOf_nil : statusOf [] = 0#32 := rfl

/-- The status of a non-empty cause set, as a number. -/
theorem statusOf_toNat_cons (c : Cause) (cs : List Cause) :
    (statusOf (c :: cs)).toNat = cs.foldl (fun n d => min n d.code) c.code := by
  have h := (foldl_min_code cs c.code).2.1
  have hc := c.code_bounds
  simp only [statusOf, BitVec.toNat_ofNat]
  exact Nat.mod_eq_of_lt (by omega)

/-- A status code is 0 or the code of a cause. -/
theorem statusOf_le (cs : List Cause) : (statusOf cs).toNat ≤ 11 := by
  cases cs with
  | nil => simp
  | cons c cs =>
    rw [statusOf_toNat_cons]
    have h := (foldl_min_code cs c.code).2.1
    have hc := c.code_bounds
    omega

end Sys2Proof.Machine
end

