-- ==== Sys2Proof/Laws/State.lean ====
section
/-! SUPPORT. One lemma per field of State and per update of it, so that no later proof unfolds a record update. -/

namespace Sys2Proof.Machine

@[simp] theorem endOfCommand_failfast (debug : Bool) (e : Effect) (s : State) : (endOfCommand debug e s).failfast = s.failfast := rfl
@[simp] theorem endOfCommand_cause (debug : Bool) (e : Effect) (s : State) : (endOfCommand debug e s).cause = logCauses e.causes s.cause := rfl
@[simp] theorem endOfCommand_halted (debug : Bool) (e : Effect) (s : State) : (endOfCommand debug e s).halted = (s.halted || (debug && haltsWhenDebug e.causes)) := rfl
@[simp] theorem endOfCommand_inputs (debug : Bool) (e : Effect) (s : State) : (endOfCommand debug e s).inputs = s.inputs := rfl
@[simp] theorem endOfCommand_responses (debug : Bool) (e : Effect) (s : State) : (endOfCommand debug e s).responses = s.responses ++ [⟨e.r0, e.r1, statusOf e.causes⟩] := rfl

@[simp] theorem writeCtrl_failfast (v : Word) (s : State) : (writeCtrl v s).failfast = v.getLsbD 0 := rfl
@[simp] theorem writeCtrl_cause (v : Word) (s : State) : (writeCtrl v s).cause = s.cause := rfl
@[simp] theorem writeCtrl_halted (v : Word) (s : State) : (writeCtrl v s).halted = s.halted := rfl
@[simp] theorem writeCtrl_inputs (v : Word) (s : State) : (writeCtrl v s).inputs = s.inputs := rfl
@[simp] theorem writeCtrl_responses (v : Word) (s : State) : (writeCtrl v s).responses = s.responses := rfl

@[simp] theorem writeErrstat_failfast (v : Word) (s : State) : (writeErrstat v s).failfast = s.failfast := rfl
@[simp] theorem writeErrstat_cause (v : Word) (s : State) : (writeErrstat v s).cause = (errstatWord s &&& ~~~(v &&& 0x7FE#32)).extractLsb' 1 10 := rfl
@[simp] theorem writeErrstat_halted (v : Word) (s : State) : (writeErrstat v s).halted = s.halted := rfl
@[simp] theorem writeErrstat_inputs (v : Word) (s : State) : (writeErrstat v s).inputs = s.inputs := rfl
@[simp] theorem writeErrstat_responses (v : Word) (s : State) : (writeErrstat v s).responses = s.responses := rfl

@[simp] theorem writeHalt_failfast (v : Word) (s : State) : (writeHalt v s).failfast = s.failfast := rfl
@[simp] theorem writeHalt_cause (v : Word) (s : State) : (writeHalt v s).cause = s.cause := rfl
@[simp] theorem writeHalt_halted (v : Word) (s : State) : (writeHalt v s).halted = (s.halted && !v.getLsbD 0) := rfl
@[simp] theorem writeHalt_inputs (v : Word) (s : State) : (writeHalt v s).inputs = s.inputs := rfl
@[simp] theorem writeHalt_responses (v : Word) (s : State) : (writeHalt v s).responses = s.responses := rfl

@[simp] theorem resetUnit_failfast (s : State) : (resetUnit s).failfast = false := rfl
@[simp] theorem resetUnit_cause (s : State) : (resetUnit s).cause = 0#10 := rfl
@[simp] theorem resetUnit_halted (s : State) : (resetUnit s).halted = false := rfl
@[simp] theorem resetUnit_inputs (s : State) : (resetUnit s).inputs = s.inputs := rfl
@[simp] theorem resetUnit_responses (s : State) : (resetUnit s).responses = s.responses := rfl

@[simp] theorem withFetchWord_failfast (s : State) (nbits w : Nat) : (s.withFetchWord nbits w).failfast = s.failfast := rfl
@[simp] theorem withFetchWord_cause (s : State) (nbits w : Nat) : (s.withFetchWord nbits w).cause = s.cause := rfl
@[simp] theorem withFetchWord_halted (s : State) (nbits w : Nat) : (s.withFetchWord nbits w).halted = s.halted := rfl
@[simp] theorem withFetchWord_inputs (s : State) (nbits w : Nat) : (s.withFetchWord nbits w).inputs = .command (commandOfBits nbits w) :: s.inputs := rfl
@[simp] theorem withFetchWord_responses (s : State) (nbits w : Nat) : (s.withFetchWord nbits w).responses = s.responses := rfl

end Sys2Proof.Machine
end

