-- ==== Sys2Proof/Laws/Ops.lean ====
section
/-! SUPPORT. For each shared operation, and for `exec` and `step`, one lemma that says everything it can do. Proofs cite
these and do not unfold the machine. -/

namespace Sys2Proof.Machine

/-- The effect of a function unit's command, after the halt check. -/
def unitEffect (s : State) (e : Effect) : Effect := if s.halted then haltedRefusal else e

/-- What an instruction produces in a state, the halt check included. -/
def effectOf (i : Instr) (s : State) : Effect :=
  match i with
  | .ptaddr m x y => unitEffect s (ptaddrRule m x y)
  | .mipselAny f sb gb => unitEffect s (mipselRule params .any f sb gb)
  | .mipselEven f sb gb => unitEffect s (mipselRule params .evenOnly f sb gb)
  | .mipselOdd f sb gb => unitEffect s (mipselRule params .oddOnly f sb gb)
  | .fxpack xy z => unitEffect s (fxpackRule params xy z)
  | .fxunpz z => unitEffect s (fxunpzRule params z)
  | .fxisinv z => unitEffect s (fxisinvRule params z)
  | .ivpack flags vsmId => unitEffect s (ivpackRule flags vsmId)
  | .ivflags p => unitEffect s (ivflagsRule p)
  | .ivid p => unitEffect s (ividRule p)
  | .csrr a => csrrRule params a s
  | .csrw a _ => csrwRule params a s

/-- The state an instruction writes before the end-of-command steps: only CSRW writes one. -/
def writtenState (i : Instr) (s : State) : State :=
  match i with
  | .csrw a v => csrwWrite a v s
  | .ptaddr _ _ _ => s
  | .mipselAny _ _ _ => s
  | .mipselEven _ _ _ => s
  | .mipselOdd _ _ _ => s
  | .fxpack _ _ => s
  | .fxunpz _ => s
  | .fxisinv _ => s
  | .ivpack _ _ => s
  | .ivflags _ => s
  | .ivid _ => s
  | .csrr _ => s

theorem unitEffect_running {s : State} (h : s.halted = false) (e : Effect) : unitEffect s e = e := by
  simp [unitEffect, h]

theorem unitEffect_halted {s : State} (h : s.halted = true) (e : Effect) : unitEffect s e = haltedRefusal := by
  simp [unitEffect, h]

/-- `runUnit` completes the command's effect, or the refusal while halted. -/
theorem runUnit_eq (e : Effect) (s : State) :
    runUnit e s = .next (endOfCommand s.failfast (unitEffect s e) s) := by
  unfold runUnit unitEffect complete
  split <;> rfl

/-- What `exec` answers: always a next state, by the end-of-command steps from the written state. -/
theorem exec_eq (i : Instr) (s : State) :
    exec i s = .next (endOfCommand s.failfast (effectOf i s) (writtenState i s)) := by
  cases i <;> first | exact runUnit_eq _ s | rfl

theorem exec_next_iff {i : Instr} {s t : State} :
    exec i s = .next t ↔ t = endOfCommand s.failfast (effectOf i s) (writtenState i s) := by
  rw [exec_eq]
  constructor
  · rintro h; injection h with h; exact h.symm
  · rintro rfl; rfl

/-- What a command that does not decode does. -/
theorem refuseCommand_eq (cmd : Word) (s : State) :
    refuseCommand cmd s = .next (endOfCommand s.failfast
      (if s.halted && !isCsrOpcode (opField cmd) then haltedRefusal else illegalRefusal) s) := by
  unfold refuseCommand complete
  split <;> rfl

/-- What a step can do: stay idle, reset, run a decoded command, or refuse one that does not decode. -/
theorem step_cases {s t : State} (h : step s = .next t) :
    (s.inputs = [] ∧ t = s) ∨
    (∃ inFlight rest, s.inputs = .reset inFlight :: rest ∧ t = resetUnit { s with inputs := rest }) ∨
    (∃ c rest i, s.inputs = .command c :: rest ∧ decode c = .ok i ∧
      exec i { s with inputs := rest } = .next t) ∨
    (∃ c rest e, s.inputs = .command c :: rest ∧ decode c = .error e ∧
      refuseCommand c.cmd { s with inputs := rest } = .next t) := by
  unfold step at h
  split at h
  · rename_i hi
    injection h with h
    exact .inl ⟨hi, h.symm⟩
  · rename_i c rest hi
    unfold runCommand at h
    split at h
    · rename_i i hd
      exact .inr (.inr (.inl ⟨c, rest, i, hi, hd, h⟩))
    · rename_i e hd
      exact .inr (.inr (.inr ⟨c, rest, e, hi, hd, h⟩))
  · rename_i f rest hi
    injection h with h
    exact .inr (.inl ⟨f, rest, hi, h.symm⟩)

theorem step_command {s : State} {c : Command} {rest : List HostInput} {i : Instr}
    (hi : s.inputs = .command c :: rest) (hd : decode c = .ok i) : step s = exec i { s with inputs := rest } := by
  simp [step, hi, runCommand, hd]

theorem step_illegal {s : State} {c : Command} {rest : List HostInput} {e : DecodeError}
    (hi : s.inputs = .command c :: rest) (hd : decode c = .error e) :
    step s = refuseCommand c.cmd { s with inputs := rest } := by
  simp [step, hi, runCommand, hd]

/-- The one way an instruction changes the CTL state besides the end-of-command steps. -/
theorem writtenState_cases (i : Instr) (s : State) :
    writtenState i s = s ∨
    (∃ v, i = .csrw 0x20 v ∧ writtenState i s = writeCtrl v s) ∨
    (∃ v, i = .csrw 0x21 v ∧ writtenState i s = writeErrstat v s) ∨
    (∃ v, i = .csrw 0x22 v ∧ writtenState i s = writeHalt v s) := by
  cases i with
  | csrw a v =>
    simp only [writtenState, csrwWrite]
    cases h : csrAt a with
    | none => exact .inl rfl
    | some r =>
      obtain rfl := csrAt_eq_some.1 h
      cases r with
      | ctrl => exact .inr (.inl ⟨v, rfl, rfl⟩)
      | errstat => exact .inr (.inr (.inl ⟨v, rfl, rfl⟩))
      | halt => exact .inr (.inr (.inr ⟨v, rfl, rfl⟩))
      | _ => exact .inl rfl
  | _ => exact .inl rfl

@[simp] theorem writtenState_responses (i : Instr) (s : State) : (writtenState i s).responses = s.responses := by
  rcases writtenState_cases i s with h | ⟨v, -, h⟩ | ⟨v, -, h⟩ | ⟨v, -, h⟩ <;> rw [h] <;> rfl

@[simp] theorem writtenState_inputs (i : Instr) (s : State) : (writtenState i s).inputs = s.inputs := by
  rcases writtenState_cases i s with h | ⟨v, -, h⟩ | ⟨v, -, h⟩ | ⟨v, -, h⟩ <;> rw [h] <;> rfl

/-- An instruction other than CSRW writes nothing before the end-of-command steps. -/
theorem writtenState_other {i : Instr} (s : State) (h : ∀ a v, i ≠ .csrw a v) : writtenState i s = s := by
  rcases writtenState_cases i s with h' | ⟨v, rfl, -⟩ | ⟨v, rfl, -⟩ | ⟨v, rfl, -⟩
  · exact h'
  · exact absurd rfl (h _ _)
  · exact absurd rfl (h _ _)
  · exact absurd rfl (h _ _)

/-- A CSRW that raises a cause writes nothing (R186). -/
theorem csrwWrite_of_causes {a : Nat} {v : Word} {s : State} (h : (csrwRule params a s).causes ≠ []) :
    csrwWrite a v s = s := by
  unfold csrwRule at h
  unfold csrwWrite
  split
  · rfl
  · rename_i r hr
    rw [hr] at h
    by_cases hro : csrAccess r = .ro
    · exact writeCsr_ro hro v s
    · simp [hro] at h

/-- The causes an instruction can raise, as sets. -/
theorem effectOf_causes (i : Instr) (s : State) :
    (effectOf i s).causes ∈ ([[], [.halted], [.ptMip], [.ptCoord], [.ptMip, .ptCoord], [.mipFootprint], [.fxSlice],
      [.fxPacked], [.ivFlags], [.ivId], [.ivFlags, .ivId], [.csrAddr], [.csrRo]] : List (List Cause)) := by
  cases i <;> simp only [effectOf, unitEffect]
  case csrr a => unfold csrrRule; split <;> simp
  case csrw a v => unfold csrwRule; split <;> try split
                   all_goals simp
  all_goals
    split
    · simp [haltedRefusal]
    · simp only [ptaddrRule, mipselRule, fxpackRule, fxunpzRule, fxisinvRule, ivpackRule, ivflagsRule, ividRule]
      repeat' split
      all_goals simp

end Sys2Proof.Machine
end

