-- ==== Sys2Proof/Laws/Params.lean ====
section
/-! SUPPORT. What `log2From` is built of: the octave of a pattern, the small integers as words, the bounds of an octave and
its running maximum. -/

namespace Sys2Proof.Machine

/-- The octave of a pattern: `floor(log2)` of its value, plus 149. -/
def octaveIndex (n : Nat) : Nat := if n / 2 ^ 23 = 0 then n.log2 else n / 2 ^ 23 + 22

/-- The pattern that starts an octave. -/
def octaveBase (k : Nat) : Nat := if k < 23 then 2 ^ k else (k - 22) * 2 ^ 23

theorem floorLog2_eq (w : Word) (h : w.toNat < 0x7F800000) : floorLog2 w = (octaveIndex w.toNat : Int) - 149 := by
  have he : w.toNat / 2 ^ 23 % 256 = w.toNat / 2 ^ 23 := Nat.mod_eq_of_lt (by omega)
  simp only [floorLog2, exponentField_eq, fractionField_eq, he, octaveIndex]
  split
  · rw [Nat.mod_eq_of_lt (by omega)]
  · push_cast; ring

theorem floorPower_eq (w : Word) (h0 : 0 < w.toNat) (h : w.toNat < 0x7F800000) : floorPower w = octaveBase (octaveIndex w.toNat) := by
  have he : w.toNat / 2 ^ 23 % 256 = w.toNat / 2 ^ 23 := Nat.mod_eq_of_lt (by omega)
  simp only [floorPower, exponentField_eq, fractionField_eq, he, octaveIndex, octaveBase]
  split
  · rename_i hz
    have : w.toNat.log2 < 23 := (Nat.log2_lt (by omega)).2 (by omega)
    rw [if_pos this, Nat.mod_eq_of_lt (by omega)]
  · rw [if_neg (by omega)]; congr 1

theorem octaveIndex_mono {n m : Nat} (h0 : 0 < n) (h : n ≤ m) : octaveIndex n ≤ octaveIndex m := by
  simp only [octaveIndex]
  split <;> split
  · exact (Nat.le_log2 (by omega)).2 ((Nat.log2_self_le (by omega)).trans h)
  · have : n.log2 < 23 := (Nat.log2_lt (by omega)).2 (by omega)
    omega
  · omega
  · omega

theorem octaveBase_le (n : Nat) (h0 : 0 < n) : octaveBase (octaveIndex n) ≤ n := by
  simp only [octaveIndex, octaveBase]
  split
  · have : n.log2 < 23 := (Nat.log2_lt (by omega)).2 (by omega)
    rw [if_pos this]; exact Nat.log2_self_le (by omega)
  · rw [if_neg (by omega)]; omega

theorem lt_octaveBase_succ (n : Nat) (h0 : 0 < n) : n < octaveBase (octaveIndex n + 1) := by
  simp only [octaveIndex]
  split
  · have : n.log2 < 23 := (Nat.log2_lt (by omega)).2 (by omega)
    simp only [octaveBase]
    split
    · exact Nat.lt_log2_self
    · have : n.log2 + 1 = 23 := by omega
      rw [this]; omega
  · simp only [octaveBase]; rw [if_neg (by omega)]; omega

theorem octaveIndex_lt (n : Nat) (h : n < 0x7F800000) : octaveIndex n < 277 := by
  simp only [octaveIndex]
  split
  · rcases Nat.eq_zero_or_pos n with rfl | hp
    · decide
    · have : n.log2 < 23 := (Nat.log2_lt (by omega)).2 (by omega)
      omega
  · omega

set_option maxRecDepth 20000 in
/-- The powers of two and their octaves, all 277. -/
theorem powerOfTwoWord_table : ∀ k : Fin 277, (powerOfTwoWord ((k.val : Int) - 149)).toNat = octaveBase k.val ∧ octaveIndex (octaveBase k.val) = k.val ∧ 0 < octaveBase k.val ∧ octaveBase k.val < 0x7F800000 := by decide

set_option maxRecDepth 20000 in
/-- The integers that `LOG2` takes on powers of two, all 278. -/
theorem f32_integerWord_table : ∀ k : Fin 278, f32 (integerWord ((k.val : Int) - 149)) = F32.ofInteger ((k.val : Int) - 149) := by decide

theorem f32_integerWord (k : Int) (h1 : -149 ≤ k) (h2 : k ≤ 128) : f32 (integerWord k) = F32.ofInteger k := by
  have := f32_integerWord_table ⟨(k + 149).toNat, by omega⟩
  simp only [Int.toNat_of_nonneg (show 0 ≤ k + 149 by omega)] at this
  rwa [show k + 149 - 149 = k by omega] at this

theorem ofInteger_units (k : Int) : (F32.ofInteger k).units = k * oneUnits := by
  simp only [F32.ofInteger]
  by_cases h : k < 0
  · simp only [h, decide_true, F32.units]; push_cast; rw [show |k| = -k from abs_of_neg h]; ring
  · simp only [h, decide_false, F32.units]; push_cast; rw [show |k| = k from abs_of_nonneg (by omega)]

theorem ofInteger_le (k j : Int) : (F32.ofInteger k).le (F32.ofInteger j) = true ↔ k ≤ j := by
  have : (F32.ofInteger k).le (F32.ofInteger j) = decide ((F32.ofInteger k).units ≤ (F32.ofInteger j).units) := rfl
  rw [this, decide_eq_true_eq, ofInteger_units, ofInteger_units]
  have hp : (0 : Int) < oneUnits := by decide
  constructor
  · exact fun h => Int.le_of_mul_le_mul_right h hp
  · exact fun h => Int.mul_le_mul_of_nonneg_right h hp.le

/-- Between two finite values lies nothing infinite. -/
theorem finite_between {x y z : F32} (h1 : x.le y = true) (h2 : y.le z = true) (hx : x.isFinite = true) (hz : z.isFinite = true) : y.isFinite = true := by
  rcases x with _ | s | ⟨s, a⟩ <;> rcases y with _ | t | ⟨t, b⟩ <;> rcases z with _ | u | ⟨u, c⟩ <;> simp_all [F32.isFinite, F32.le] <;> cases t <;> simp_all

theorem le_octaveTop (k : Int) (h1 : -149 ≤ k) (h2 : k ≤ 127) : (F32.ofInteger k).le (f32 (octaveTop k)) = true := by
  unfold octaveTop
  split
  · rw [f32_integerWord _ (by omega) (by omega), ofInteger_le]; omega
  · have : k = 127 := by omega
    subst this; decide

theorem octaveTop_isFinite (k : Int) (h1 : -149 ≤ k) (h2 : k ≤ 127) : (f32 (octaveTop k)).isFinite = true := by
  unfold octaveTop
  split
  · rw [f32_integerWord _ (by omega) (by omega)]; rfl
  · decide

/-- A word moved to its octave lies in it. -/
theorem clampToOctave_bounds (k : Int) (h1 : -149 ≤ k) (h2 : k ≤ 127) (v : Word) :
    (F32.ofInteger k).le (f32 (clampToOctave k v)) = true ∧ (f32 (clampToOctave k v)).le (f32 (octaveTop k)) = true := by
  unfold clampToOctave
  split
  · rw [f32_integerWord _ (by omega) (by omega)]
    exact ⟨(ofInteger_le _ _).2 (le_refl _), le_octaveTop k h1 h2⟩
  · rename_i h
    have h : (F32.ofInteger k).le (f32 v) = true := by simpa using h
    split
    · exact ⟨h, ‹_›⟩
    · exact ⟨le_octaveTop k h1 h2, F32.le_refl_of_ne_nan _ (F32.ne_nan_of_le_right (le_octaveTop k h1 h2))⟩

/-- So does the running maximum. -/
theorem octaveLog2_bounds (raw : Word → Word) (k : Int) (h1 : -149 ≤ k) (h2 : k ≤ 127) (base n : Nat) :
    (F32.ofInteger k).le (f32 (octaveLog2 raw k base n)) = true ∧ (f32 (octaveLog2 raw k base n)).le (f32 (octaveTop k)) = true := by
  induction n with
  | zero =>
    simp only [octaveLog2]
    rw [f32_integerWord _ (by omega) (by omega)]
    exact ⟨(ofInteger_le _ _).2 (le_refl _), le_octaveTop k h1 h2⟩
  | succ n ih =>
    simp only [octaveLog2]
    split
    · exact clampToOctave_bounds k h1 h2 _
    · exact ih

theorem octaveLog2_le_succ (raw : Word → Word) (k : Int) (h1 : -149 ≤ k) (h2 : k ≤ 127) (base n : Nat) :
    (f32 (octaveLog2 raw k base n)).le (f32 (octaveLog2 raw k base (n + 1))) = true := by
  simp only [octaveLog2]
  split
  · assumption
  · exact F32.le_refl_of_ne_nan _ (F32.ne_nan_of_le_right (octaveLog2_bounds raw k h1 h2 base n).1)

/-- The running maximum never falls. -/
theorem octaveLog2_mono (raw : Word → Word) (k : Int) (h1 : -149 ≤ k) (h2 : k ≤ 127) (base n d : Nat) :
    (f32 (octaveLog2 raw k base n)).le (f32 (octaveLog2 raw k base (n + d))) = true := by
  induction d with
  | zero => exact F32.le_refl_of_ne_nan _ (F32.ne_nan_of_le_right (octaveLog2_bounds raw k h1 h2 base n).1)
  | succ d ih => exact F32.le_trans ih (octaveLog2_le_succ raw k h1 h2 base (n + d))

/-- `log2From` on the positive finite patterns. -/
theorem log2From_eq (raw : Word → Word) (w : Word) (h0 : 0 < w.toNat) (h : w.toNat < 0x7F800000) :
    log2From raw w = octaveLog2 raw ((octaveIndex w.toNat : Int) - 149) (octaveBase (octaveIndex w.toNat)) (w.toNat - octaveBase (octaveIndex w.toNat)) := by
  have hv : validFootprint w = true := (validFootprint_iff_toNat w).2 (by omega)
  have hne : w ≠ 0x7F800000#32 := by rintro rfl; simp at h
  rw [log2From, if_neg (by simp [hv]), if_neg hne, floorLog2_eq w h, floorPower_eq w h0 h]

/-- Nothing finite exceeds the greatest finite value. -/
theorem le_maxFinite (v : Word) (hf : (f32 v).isFinite = true) : (f32 v).le (f32 0x7F7FFFFF#32) = true := by
  have e : f32 0x7F7FFFFF#32 = .finite false (patternMag 0x7F7FFFFF) := f32_of_pattern _ (by decide)
  rcases hz : f32 v with _ | s | ⟨s, a⟩
  · simp [hz, F32.isFinite] at hf
  · simp [hz, F32.isFinite] at hf
  · rw [e]; simp only [F32.le, decide_eq_true_eq]
    cases s
    · -- positive
      have hm : v.msb = false := by
        have := hz; simp only [f32] at this; split at this
        · split at this <;> cases this
        · split at this <;> injection this
      rw [msb_eq_decide] at hm
      have hm : ¬ 2^31 ≤ v.toNat := of_decide_eq_false hm
      have hlt : v.toNat < 0x7F800000 := by
        by_contra hge
        have h255 : v.toNat / 2 ^ 23 % 256 = 255 := by omega
        simp only [f32, exponentField_eq, fractionField_eq, h255, if_true] at hz; split at hz <;> cases hz
      rw [f32_of_pattern v hlt] at hz; injection hz with _ hz
      rw [← hz]; simp only [F32.units]
      exact_mod_cast patternMag_strictMono.monotone (by omega)
    · simp only [F32.units]; omega

/-- The integer parameters made from free constants keep the sentinel and the logical sentinel inside a signed word. -/
theorem paramsFrom_ranges (bias : BitVec 31) (depth : Nat) (raw : Word → Word) :
    let p := paramsFrom bias depth raw
    0 ≤ p.sliceBias ∧ p.sliceBias ≤ 2 ^ 31 - 1 ∧ -2 ^ 31 ≤ invalidSlice p ∧ p.invalidPackedZ ≤ -1 := by
  have h := bias.isLt
  have h2 : depth % (2 ^ 31 - bias.toNat) < 2 ^ 31 - bias.toNat := Nat.mod_lt _ (by omega)
  simp only [invalidSlice, paramsFrom]
  omega

/-- A signed value in range survives its pattern. -/
theorem toInt_word (v : Int) (h1 : -2 ^ 31 ≤ v) (h2 : v ≤ 2 ^ 31 - 1) : (word v).toInt = v := by
  rw [BitVec.toInt_ofInt]
  apply Int.bmod_eq_of_le <;> norm_num <;> omega

end Sys2Proof.Machine
end

