-- ==== Sys2Proof/Laws/PerInstr.lean ====
section
/-! SUPPORT. A law of each instruction as syntax, one lemma per constructor. -/

namespace Sys2Proof.Laws.TableRow

/-- The encoded command word selects a row of the opcode table (30_encoding.md R85), and the row has the instruction's
mnemonic. -/
def Statement (i : Instr) : Prop :=
  i.wellFormed = true → ∃ row ∈ opcodeTable, row.mnemonic = i.mnemonic ∧ row.selects (encode i).cmd = true

/-- A fixed command word is its own row's pattern. -/
theorem of_row {i : Instr} (row : OpcodeRow) (h : row ∈ opcodeTable) (hm : row.mnemonic = i.mnemonic)
    (hs : row.selects (encode i).cmd = true) : Statement i :=
  fun _ => ⟨row, h, hm, hs⟩

/-- A CSR address in its field does not touch the bits that a CSR row fixes. -/
theorem selects_withCsrField (p : Word) (csr : Nat) (h : csr < 256) (hp : p &&& 0xFF00FFFF#32 = p) :
    withCsrField p csr &&& 0xFF00FFFF#32 = p := by
  have all : ∀ b : BitVec 8, (b.setWidth 32 <<< 16) &&& 0xFF00FFFF#32 = 0#32 := by decide
  have hz : (BitVec.ofNat 32 csr <<< 16) &&& 0xFF00FFFF#32 = 0#32 := by
    have := all (BitVec.ofNat 8 csr)
    rwa [show (BitVec.ofNat 8 csr).setWidth 32 = BitVec.ofNat 32 csr from
      BitVec.eq_of_toNat_eq (by simp; omega)] at this
  rw [withCsrField, BitVec.and_comm, BitVec.and_or_distrib_left, BitVec.and_comm _ p, hp, BitVec.and_comm _ (_ <<< _), hz,
    BitVec.or_zero]

theorem ptaddr (m x y : Word) : Statement (.ptaddr m x y) :=
  of_row ⟨"PTADDR", 0x00000001#32, 0xFFFFFFFF#32⟩ (by decide) rfl (by simp [OpcodeRow.selects, encode])

theorem mipselAny (f sb gb : Word) : Statement (.mipselAny f sb gb) :=
  of_row ⟨"MIPSEL.ANY", 0x00000002#32, 0xFFFFFFFF#32⟩ (by decide) rfl (by simp [OpcodeRow.selects, encode])

theorem mipselEven (f sb gb : Word) : Statement (.mipselEven f sb gb) :=
  of_row ⟨"MIPSEL.EVEN", 0x00000102#32, 0xFFFFFFFF#32⟩ (by decide) rfl (by simp [OpcodeRow.selects, encode])

theorem mipselOdd (f sb gb : Word) : Statement (.mipselOdd f sb gb) :=
  of_row ⟨"MIPSEL.ODD", 0x00000202#32, 0xFFFFFFFF#32⟩ (by decide) rfl (by simp [OpcodeRow.selects, encode])

theorem fxpack (xy z : Word) : Statement (.fxpack xy z) :=
  of_row ⟨"FXPACK", 0x00000003#32, 0xFFFFFFFF#32⟩ (by decide) rfl (by simp [OpcodeRow.selects, encode])

theorem fxunpz (z : Word) : Statement (.fxunpz z) :=
  of_row ⟨"FXUNPZ", 0x00000004#32, 0xFFFFFFFF#32⟩ (by decide) rfl (by simp [OpcodeRow.selects, encode])

theorem fxisinv (z : Word) : Statement (.fxisinv z) :=
  of_row ⟨"FXISINV", 0x00000005#32, 0xFFFFFFFF#32⟩ (by decide) rfl (by simp [OpcodeRow.selects, encode])

theorem ivpack (flags vsmId : Word) : Statement (.ivpack flags vsmId) :=
  of_row ⟨"IVPACK", 0x00000006#32, 0xFFFFFFFF#32⟩ (by decide) rfl (by simp [OpcodeRow.selects, encode])

theorem ivflags (p : Word) : Statement (.ivflags p) :=
  of_row ⟨"IVFLAGS", 0x00000007#32, 0xFFFFFFFF#32⟩ (by decide) rfl (by simp [OpcodeRow.selects, encode])

theorem ivid (p : Word) : Statement (.ivid p) :=
  of_row ⟨"IVID", 0x00000008#32, 0xFFFFFFFF#32⟩ (by decide) rfl (by simp [OpcodeRow.selects, encode])

theorem csrr (csr : Nat) : Statement (.csrr csr) := fun h =>
  ⟨⟨"CSRR", 0x00000010#32, 0xFF00FFFF#32⟩, by decide, rfl, by
    simpa [OpcodeRow.selects, encode] using selects_withCsrField 0x00000010#32 csr (of_decide_eq_true h) (by decide)⟩

theorem csrw (csr : Nat) (v : Word) : Statement (.csrw csr v) := fun h =>
  ⟨⟨"CSRW", 0x00000011#32, 0xFF00FFFF#32⟩, by decide, rfl, by
    simpa [OpcodeRow.selects, encode] using selects_withCsrField 0x00000011#32 csr (of_decide_eq_true h) (by decide)⟩

end Sys2Proof.Laws.TableRow
end

