-- ==== Sys2Proof/Machine/AsmText.lean ====
section
/-! DEFINITION. The text of an assembler line, read by the grammar of 30_encoding.md R88. Where spaces may stand and what
a name is made of is this model's choice: spaces and tabs separate and surround, a name is what stands up to the next sign
of the grammar (log entry 15). -/

namespace Sys2Proof.Machine

/-- A blank of the text. -/
def isBlank (c : Char) : Bool := c == ' ' || c == '\t'

/-- The text without blanks at its two ends. -/
def trimBlanks (t : List Char) : List Char := ((t.dropWhile isBlank).reverse.dropWhile isBlank).reverse

/-- The value of a digit in a base, none for another sign. -/
def digitValue (base : Nat) (c : Char) : Option Nat :=
  let n := c.toNat
  let v :=
    if 48 ≤ n ∧ n ≤ 57 then n - 48
    else if 65 ≤ n ∧ n ≤ 70 then n - 55
    else if 97 ≤ n ∧ n ≤ 102 then n - 87
    else base
  if v < base then some v else none

/-- Digits read on from a value so far. -/
def readDigits (base acc : Nat) : List Char → Option Nat
  | [] => some acc
  | c :: cs =>
    match digitValue base c with
    | none => none
    | some v => readDigits base (acc * base + v) cs

/-- One digit or more. -/
def readNumber (base : Nat) (t : List Char) : Option Nat :=
  if t.isEmpty then none else readDigits base 0 t

/-- `int` of R88: decimal with an optional minus sign, or hexadecimal after `0x`. -/
def readInt (t : List Char) : Option Int :=
  match t with
  | '0' :: 'x' :: digits => (readNumber 16 digits).map fun n => (n : Int)
  | '-' :: digits => (readNumber 10 digits).map fun n => -(n : Int)
  | digits => (readNumber 10 digits).map fun n => (n : Int)

/-- A decimal real without its sign: digits, and after a point more digits. -/
def readDecimal (neg : Bool) (t : List Char) : Option FloatLiteral :=
  match t.splitOn '.' with
  | [whole] => (readNumber 10 whole).map fun n => .decimal neg n 0
  | [whole, fraction] =>
    match readNumber 10 whole, readNumber 10 fraction with
    | some _, some _ => (readNumber 10 (whole ++ fraction)).map fun n => .decimal neg n fraction.length
    | none, _ => none
    | _, none => none
  | _ => none

/-- What follows `f:` (R88). -/
def readFloat (t : List Char) : Option FloatLiteral :=
  if t = "+inf".toList then some .posInf
  else if t = "-inf".toList then some .negInf
  else if t = "nan".toList then some .nan
  else if t = "-0".toList then some .negZero
  else
    match t with
    | '-' :: digits => readDecimal true digits
    | digits => readDecimal false digits

/-- The names of the control registers (10_state.md section 3). -/
def csrNames : List (String × Csr) :=
  [("PAGE_SIZE_LOG2", .pageSizeLog2), ("PAGE_SIZE", .pageSize), ("L0_DIM_PAGES_LOG2", .l0DimPagesLog2),
   ("L0_DIM_PAGES", .l0DimPages), ("MAX_MIP_LEVELS", .maxMipLevels), ("VIRTUAL_MAX_RES", .virtualMaxRes),
   ("PT_CAPACITY", .ptCapacity), ("INV_FLAG_BITS", .invFlagBits), ("SLICE_BIAS", .sliceBias),
   ("INVALID_PACKED_Z", .invalidPackedZ), ("INVALID_SLICE", .invalidSlice),
   ("PT_LEVEL_OFFSET0", .ptLevelOffset 0), ("PT_LEVEL_OFFSET1", .ptLevelOffset 1),
   ("PT_LEVEL_OFFSET2", .ptLevelOffset 2), ("PT_LEVEL_OFFSET3", .ptLevelOffset 3),
   ("PT_LEVEL_OFFSET4", .ptLevelOffset 4), ("PT_LEVEL_OFFSET5", .ptLevelOffset 5),
   ("PT_LEVEL_OFFSET6", .ptLevelOffset 6), ("PT_LEVEL_OFFSET7", .ptLevelOffset 7),
   ("CTRL", .ctrl), ("ERRSTAT", .errstat), ("HALT", .halt)]

/-- The mnemonics of R88 and R90. -/
def asmMnemonics : List (String × AsmMnemonic) :=
  [("PTADDR", .ptaddr), ("MIPSEL.ANY", .mipselAny), ("MIPSEL.EVEN", .mipselEven), ("MIPSEL.ODD", .mipselOdd),
   ("FXPACK", .fxpack), ("FXUNPZ", .fxunpz), ("FXISINV", .fxisinv), ("IVPACK", .ivpack), ("IVFLAGS", .ivflags),
   ("IVID", .ivid), ("CSRR", .csrr), ("CSRW", .csrw), ("MIPSEL", .mipsel), ("FXINVAL", .fxinval), ("PTLVL", .ptlvl),
   ("ERRCLR", .errclr), ("RESUME", .resume), ("DEBUG", .debug), ("RELEASE", .release)]

/-- The entry of a word in a list of names. -/
def findWord {α : Type} (t : List Char) : List (String × α) → Option α
  | [] => none
  | (n, v) :: rest => if n.toList = t then some v else findWord t rest

/-- `'$' name [ '.R0' | '.R1' ]` after its dollar sign; `.R0` by default (R88). -/
def readResult (t : List Char) : Option AsmOperand :=
  match t.splitOn '.' with
  | [name] => if name.isEmpty then none else some (.result (String.ofList name) .r0)
  | [name, part] =>
    if name.isEmpty then none
    else if part = "R0".toList then some (.result (String.ofList name) .r0)
    else if part = "R1".toList then some (.result (String.ofList name) .r1)
    else none
  | _ => none

/-- An operand of R88. -/
def readOperand (t : List Char) : Option AsmOperand :=
  match t with
  | '$' :: name => readResult name
  | 'f' :: ':' :: x => (readFloat x).map .float
  | 'c' :: 's' :: 'r' :: ':' :: n => (readInt n).map .csrRaw
  | other =>
    match readInt other with
    | some v => some (.int v)
    | none => (findWord other csrNames).map .csrName

/-- Operands between commas. -/
def readOperands : List (List Char) → Option (List AsmOperand)
  | [] => some []
  | t :: ts =>
    match readOperand (trimBlanks t), readOperands ts with
    | some o, some os => some (o :: os)
    | none, _ => none
    | _, none => none

/-- `mnemonic [ operand [, operand ...] ]`. -/
def readBody (name : Option String) (t : List Char) : Except AsmError AsmLine :=
  let body := trimBlanks t
  let operandText := trimBlanks (body.dropWhile fun c => !isBlank c)
  match findWord (body.takeWhile fun c => !isBlank c) asmMnemonics with
  | none => .error .badText
  | some m =>
    match readOperands (if operandText.isEmpty then [] else operandText.splitOn ',') with
    | none => .error .badText
    | some os => .ok ⟨name, m, os⟩

/-- One line of R88, without its comment. -/
def readLine (text : List Char) : Except AsmError AsmLine :=
  match trimBlanks (text.takeWhile fun c => c != ';') with
  | '$' :: rest =>
    let name := trimBlanks (rest.takeWhile fun c => c != '=')
    match rest.dropWhile fun c => c != '=' with
    | '=' :: body => if name.isEmpty then .error .badText else readBody (some (String.ofList name)) body
    | _ => .error .badText
  | body => readBody none body

end Sys2Proof.Machine
end

