-- ==== Sys2Proof/Machine/HostProgram.lean ====
section
/-! DEFINITION. A host running a program of assembler lines: it issues the lines in order, waits for each response and
forwards result words by name (30_encoding.md R89, R91; 70_reset_and_hazards.md R236, R241, R242). -/

namespace Sys2Proof.Machine

/-- The machine and what the host remembers of the responses. -/
structure HostRun where
  state : State
  names : HostNames
deriving DecidableEq, Repr

/-- The host issues a command after whatever it has issued before. -/
def issue (c : Command) (s : State) : State := { s with inputs := s.inputs ++ [.command c] }

/-- The host assembles one line, issues it, and binds the response to the line's name. The machine has no other input
outstanding, since the host waited for the responses. -/
def runLine (l : AsmLine) (h : HostRun) : Except AsmError HostRun :=
  match assemble params h.names l with
  | .error e => .error e
  | .ok c =>
    match step (issue c h.state) with
    | .fault _ => .error .machineStopped
    | .refused _ => .error .machineStopped
    | .next t =>
      match l.name, t.responses.getLast? with
      | some n, some r => .ok ⟨t, (n, r) :: h.names⟩
      | none, _ => .ok ⟨t, h.names⟩
      | _, none => .ok ⟨t, h.names⟩

/-- The lines of a program in order (R89): no labels, no control flow. -/
def runProgram : List AsmLine → HostRun → Except AsmError HostRun
  | [], h => .ok h
  | l :: ls, h =>
    match runLine l h with
    | .error e => .error e
    | .ok h' => runProgram ls h'

end Sys2Proof.Machine
end

