-- ==== Sys2Proof/Tests/Slice0.lean ====
section
/-! SUPPORT. Tests of the model on the vectors of 95_test_vectors.md (the section is named at each) and, at the end, one
witness for every obligation that has hypotheses. -/

namespace Sys2Proof.Tests

open Sys2Proof.Machine

/-- The reset state with this command next. -/
def sends (cmd a b c : Word) : State := { State.reset with inputs := [.command ⟨cmd, a, b, c⟩] }

/-- A state with a chosen CTL state, after nothing. -/
def ctl (failfast : Bool) (cause : BitVec 10) (halted : Bool) : State :=
  { failfast := failfast, cause := cause, halted := halted, inputs := [], responses := [] }

/-- The CTL state and the responses after a step. -/
def seen (o : Host.Outcome State Fault Refusal) : Option (Bool × BitVec 10 × Bool × List Response) :=
  match o with
  | .next t => some (t.failfast, t.cause, t.halted, t.responses)
  | .fault _ => none
  | .refused _ => none

/-- `REF` of 00_scope.md R7, with the floor of the logarithm for `LOG2`, which has P1 to P4. -/
def refParams : Params :=
  { sliceBias := 1024
    invalidPackedZ := -1
    log2 := fun w => if w = 0x7F800000#32 then w else integerWord (floorLog2 w) }

/-- Results and status of an effect. -/
def result (e : Effect) : Word × Word × Nat := (e.r0, e.r1, (statusOf e.causes).toNat)

/-- `ERRSTAT` after an effect, from 0. -/
def errstatAfter (e : Effect) : Word := errstatWord (endOfCommand false e State.reset)

/-! ## WellFormed: the one check, at its boundary -/

theorem test_csrr_256_is_ill_formed : (Instr.csrr 256).wellFormed = false := by decide
theorem test_csrw_256_is_ill_formed : (Instr.csrw 256 0#32).wellFormed = false := by decide
theorem test_csr_255_is_well_formed : (Instr.csrr 255).wellFormed = true ∧ (Instr.csrw 255 0#32).wellFormed = true := by
  decide

/-! ## Decode: words written out from 30_encoding.md R81 and R85 (RSV1, CSR, RSV0, MODE, OP) -/

theorem test_decode_ptaddr :
    decode ⟨0b00000000_00000000_000000_00_00000001#32, 2#32, 5#32, 3#32⟩ = .ok (.ptaddr 2#32 5#32 3#32) := by decide
theorem test_decode_mipsel_any :
    decode ⟨0b00000000_00000000_000000_00_00000010#32, 1#32, 2#32, 3#32⟩ = .ok (.mipselAny 1#32 2#32 3#32) := by decide
theorem test_decode_mipsel_even :
    decode ⟨0b00000000_00000000_000000_01_00000010#32, 1#32, 2#32, 3#32⟩ = .ok (.mipselEven 1#32 2#32 3#32) := by decide
theorem test_decode_mipsel_odd :
    decode ⟨0b00000000_00000000_000000_10_00000010#32, 1#32, 2#32, 3#32⟩ = .ok (.mipselOdd 1#32 2#32 3#32) := by decide
theorem test_decode_fxpack :
    decode ⟨0b00000000_00000000_000000_00_00000011#32, 1#32, 2#32, 3#32⟩ = .ok (.fxpack 1#32 2#32) := by decide
theorem test_decode_fxunpz :
    decode ⟨0b00000000_00000000_000000_00_00000100#32, 1#32, 2#32, 3#32⟩ = .ok (.fxunpz 1#32) := by decide
theorem test_decode_fxisinv :
    decode ⟨0b00000000_00000000_000000_00_00000101#32, 1#32, 2#32, 3#32⟩ = .ok (.fxisinv 1#32) := by decide
theorem test_decode_ivpack :
    decode ⟨0b00000000_00000000_000000_00_00000110#32, 1#32, 2#32, 3#32⟩ = .ok (.ivpack 1#32 2#32) := by decide
theorem test_decode_ivflags :
    decode ⟨0b00000000_00000000_000000_00_00000111#32, 1#32, 2#32, 3#32⟩ = .ok (.ivflags 1#32) := by decide
theorem test_decode_ivid :
    decode ⟨0b00000000_00000000_000000_00_00001000#32, 1#32, 2#32, 3#32⟩ = .ok (.ivid 1#32) := by decide
theorem test_decode_csrr :
    decode ⟨0b00000000_10100101_000000_00_00010000#32, 1#32, 2#32, 3#32⟩ = .ok (.csrr 0xA5) := by decide
theorem test_decode_csrw :
    decode ⟨0b00000000_11111111_000000_00_00010001#32, 1#32, 2#32, 3#32⟩ = .ok (.csrw 255 1#32) := by decide

/-- 95_test_vectors.md section 2.9. -/
theorem test_illegal_words_are_rejected :
    ([(0x00000000#32, .unknownOpcode), (0x00000009#32, .unknownOpcode), (0x0000000F#32, .unknownOpcode),
      (0x00000012#32, .unknownOpcode), (0x000000FF#32, .unknownOpcode), (0x00000302#32, .reservedMode),
      (0x00000101#32, .modeNotZero), (0x00010001#32, .csrNotZero), (0x00000401#32, .reservedField),
      (0x01000001#32, .reservedField), (0x80000010#32, .reservedField)] : List (Word × DecodeError)).all
      (fun w => decide (decode ⟨w.1, 0#32, 0#32, 0#32⟩ = .error w.2)) = true := by decide

/-- 95 section 2.9: an illegal word in the reset state, and while halted. -/
theorem test_illegal_word_is_logged :
    seen (step (sends 0x00000302#32 0x42800000#32 0#32 0#32)) = some (false, 0b1#10, false, [⟨0#32, 0#32, 1#32⟩]) := by decide
theorem test_illegal_word_while_halted :
    seen (step { sends 0x00000000#32 0#32 0#32 0#32 with halted := true, failfast := true }) =
      some (true, 0#10, true, [⟨0#32, 0#32, 11#32⟩]) := by decide

/-- R86 on an illegal word with a CSR opcode while halted (log entry 22). -/
theorem test_illegal_csr_word_while_halted :
    seen (step { sends 0x80000010#32 0#32 0#32 0#32 with halted := true }) =
      some (false, 0b1#10, true, [⟨0#32, 0#32, 1#32⟩]) := by decide

/-- The rows of the table select disjoint words (R85): the one word of each other row is outside. -/
theorem test_opcode_rows_are_disjoint :
    opcodeTable.Pairwise (fun r q => r.pattern &&& (r.mask &&& q.mask) ≠ q.pattern &&& (r.mask &&& q.mask)) := by decide

theorem test_decodeTableWord :
    decodeTableWord 32 0x00230011 = some (.csrw 0x23 0#32) ∧ decodeTableWord 32 0x00000302 = none ∧
    decodeTableWord 128 0x00000004_00000003_00000002_00000001 = some (.ptaddr 2#32 3#32 4#32) := by decide

theorem test_withFetchWord_runs_the_command :
    seen (step (State.reset.withFetchWord 32 0x00060010)) = some (false, 0#10, false, [⟨0x5555#32, 0#32, 0#32⟩]) := by decide

/-! ## PTADDR: 95 section 2.2 -/

theorem test_ptaddr_valid_triples :
    ([(0, 0, 0, 0), (0, 127, 0, 127), (0, 0, 1, 128), (0, 127, 127, 16383), (1, 0, 0, 16384), (1, 63, 63, 20479),
      (2, 5, 3, 20581), (3, 15, 15, 21759), (4, 1, 2, 21777), (5, 3, 3, 21839), (6, 1, 1, 21843), (7, 0, 0, 21844)] :
      List (Nat × Nat × Nat × Nat)).all (fun v =>
        decide (result (ptaddrRule (.ofNat 32 v.1) (.ofNat 32 v.2.1) (.ofNat 32 v.2.2.1)) = (.ofNat 32 v.2.2.2, 0#32, 0)))
      = true := by decide
theorem test_ptaddr_violations :
    ([(8, 0, 0, 21844, 2, 0x004), (0xFFFFFFFF, 0, 0, 21844, 2, 0x004), (7, 1, 0, 21844, 3, 0x008), (0, 128, 5, 767, 3, 0x008),
      (0, 0xFFFFFFFF, 0xFFFFFFFF, 16383, 3, 0x008), (1, 64, 0, 16447, 3, 0x008), (1, 0, 64, 20416, 3, 0x008),
      (6, 2, 0, 21841, 3, 0x008), (9, 0, 0, 21844, 2, 0x004), (9, 1, 0, 21844, 2, 0x00C)] :
      List (Nat × Nat × Nat × Nat × Nat × Nat)).all (fun (m, x, y, r, st, log) =>
        let e := ptaddrRule (.ofNat 32 m) (.ofNat 32 x) (.ofNat 32 y)
        decide (result e = (.ofNat 32 r, 0#32, st) ∧ errstatAfter e = .ofNat 32 log)) = true := by decide

/-! ## MIPSEL: 95 sections 2.1 and 2.3 -/

theorem test_binary32_values :
    f32 0x42C80000#32 = F32.ofInteger 100 ∧ f32 0xC2F20000#32 = F32.ofInteger (-121) ∧
    f32 0x47800000#32 = F32.ofInteger 65536 ∧ f32 0x3F400000#32 = .finite false (3 * 2 ^ 147) ∧
    f32 0x00000001#32 = .finite false 1 ∧ f32 0x7F000000#32 = .finite false (2 ^ 127 * oneUnits) ∧ f32 0xFF800000#32 = .inf true ∧
    f32 0x7FC00000#32 = .nan ∧ f32 0x80000000#32 = .finite true 0 := by decide

/-- 1 + 2^-24 is a tie and goes to 1; 1 + 2^-23 + 2^-24 is a tie and goes up; the greatest finite value doubled is +inf;
the least subnormal doubled is kept (R11). -/
theorem test_fadd_rounds_to_even :
    fadd (f32 0x3F800000#32) (f32 0x33800000#32) = f32 0x3F800000#32 ∧
    fadd (f32 0x3F800001#32) (f32 0x33800000#32) = f32 0x3F800002#32 ∧
    fadd (f32 0x7F7FFFFF#32) (f32 0x7F7FFFFF#32) = .inf false ∧
    fadd (f32 0x00000001#32) (f32 0x00000001#32) = f32 0x00000002#32 := by decide

/-- Footprint, biases, ANY, EVEN, ODD and status, all rows with one answer. -/
theorem test_mipsel_vectors :
    ([(0x42800000, 0, 0, 6, 6, 7, 0), (0x42800000, 0x3F800000, 0, 7, 6, 7, 0), (0x42800000, 0x40000000, 0, 7, 6, 7, 0),
      (0x42800000, 0, 0x3F800000, 7, 6, 7, 0), (0x42800000, 0xC0B00000, 0, 0, 0, 1, 0), (0x42800000, 0xC0C00000, 0, 0, 0, 1, 0),
      (0x42000000, 0x3F400000, 0, 5, 4, 5, 0), (0x40800000, 0x3F000000, 0x3F000000, 3, 2, 3, 0),
      (0x41000000, 0xBFC00000, 0xBF000000, 1, 0, 1, 0), (0x3F800000, 0, 0, 0, 0, 1, 0), (0x3F000000, 0, 0, 0, 0, 1, 0),
      (0x40000000, 0, 0, 1, 0, 1, 0), (0x43000000, 0, 0, 7, 6, 7, 0), (0x43000000, 0xBF000000, 0, 6, 6, 7, 0),
      (0x47800000, 0, 0, 7, 6, 7, 0), (0x7F000000, 0xC2F20000, 0, 6, 6, 7, 0), (0x7F800000, 0, 0, 7, 6, 7, 0),
      (0x00000001, 0, 0, 0, 0, 1, 0), (0x00000000, 0, 0, 0, 0, 1, 4), (0x80000000, 0, 0, 0, 0, 1, 4),
      (0xBF800000, 0, 0, 0, 0, 1, 4), (0x7FC00000, 0, 0, 0, 0, 1, 4), (0xBF800000, 0x7F800000, 0, 0, 0, 1, 4),
      (0x42800000, 0x7FC00000, 0, 0, 0, 1, 0), (0x42800000, 0x7F800000, 0xFF800000, 0, 0, 1, 0),
      (0x42800000, 0xFF800000, 0, 0, 0, 1, 0), (0x7F800000, 0xFF800000, 0, 0, 0, 1, 0), (0x42800000, 0x7F800000, 0, 7, 6, 7, 0)] :
      List (Nat × Nat × Nat × Nat × Nat × Nat × Nat)).all (fun (f, sb, gb, anyLevel, evenLevel, oddLevel, st) =>
        let go (m : MipMode) := result (mipselRule refParams m (.ofNat 32 f) (.ofNat 32 sb) (.ofNat 32 gb))
        decide (go .any = (.ofNat 32 anyLevel, 0#32, st) ∧ go .evenOnly = (.ofNat 32 evenLevel, 0#32, st) ∧
          go .oddOnly = (.ofNat 32 oddLevel, 0#32, st))) = true := by decide

/-- With the free `LOG2` of the machine itself: 64 is a power of two (R143; 95 E2), and a zero footprint is cause 4. -/
theorem test_mipsel_any_of_64 :
    seen (step (sends 0x00000002#32 0x42800000#32 0#32 0#32)) = some (false, 0#10, false, [⟨6#32, 0#32, 0#32⟩]) := by decide
theorem test_mipsel_even_of_64_biased :
    seen (step (sends 0x00000102#32 0x42800000#32 0x3F800000#32 0#32)) = some (false, 0#10, false, [⟨6#32, 0#32, 0#32⟩]) := by
  decide
theorem test_mipsel_odd_of_zero :
    seen (step (sends 0x00000202#32 0#32 0#32 0#32)) = some (false, 0b1000#10, false, [⟨1#32, 0#32, 4#32⟩]) := by decide

/-! ## FXPACK, FXUNPZ, FXISINV: 95 sections 2.4 to 2.6, under REF -/

theorem test_fxpack_vectors :
    ([(0x00000000, 0x00000400, 0), (0x00000001, 0x00000401, 0), (0xFFFFFFFF, 0x000003FF, 0), (0xFFFFFFFD, 0x000003FD, 0),
      (0xFFFFFC00, 0x00000000, 0), (0x7FFFFBFF, 0x7FFFFFFF, 0), (0x7FFFFC00, 0x7FFFFFFF, 5), (0x7FFFFFFF, 0x7FFFFFFF, 5),
      (0xFFFFFBFF, 0xFFFFFFFF, 0), (0xFFFFFBFE, 0x00000000, 5), (0x80000000, 0x00000000, 5)] : List (Nat × Nat × Nat)).all
      (fun (z, packed, st) =>
        decide (result (fxpackRule refParams 0x00050003#32 (.ofNat 32 z)) = (0x00050003#32, .ofNat 32 packed, st))) = true := by
  decide
theorem test_fxunpz_vectors :
    ([(0x00000400, 0x00000000, 0), (0x000003FD, 0xFFFFFFFD, 0), (0x00000000, 0xFFFFFC00, 0), (0x7FFFFFFF, 0x7FFFFBFF, 0),
      (0xFFFFFFFF, 0xFFFFFBFF, 0), (0xFFFFFFFE, 0xFFFFFBFE, 6), (0xFFFFFC00, 0xFFFFF800, 6), (0xFFFFFBFF, 0xFFFFF7FF, 6),
      (0x80000000, 0x80000000, 6)] : List (Nat × Nat × Nat)).all
      (fun (z, slice, st) => decide (result (fxunpzRule refParams (.ofNat 32 z)) = (.ofNat 32 slice, 0#32, st))) = true := by
  decide
theorem test_fxisinv_vectors :
    ([(0xFFFFFFFF, 1), (0x00000000, 0), (0x7FFFFFFF, 0), (0xFFFFFFFE, 0), (0xFFFFFBFF, 0), (0x80000000, 0)] :
      List (Nat × Nat)).all
      (fun (z, r) => decide (result (fxisinvRule refParams (.ofNat 32 z)) = (.ofNat 32 r, 0#32, 0))) = true := by decide

/-! ## IVPACK, IVFLAGS, IVID: 95 section 2.7 -/

theorem test_ivpack_vectors :
    ([(0x5A, 0x123456, 0x1234565A, 0, 0), (0, 0, 0, 0, 0), (0, 1, 0x100, 0, 0), (0xFF, 0xFFFFFF, 0xFFFFFFFF, 0, 0),
      (0x100, 1, 0x100, 7, 0x080), (1, 0x1000000, 1, 8, 0x100), (0x1FF, 0x1000000, 0xFF, 7, 0x180),
      (0xFFFFFFFF, 0xFFFFFFFF, 0xFFFFFFFF, 7, 0x180)] : List (Nat × Nat × Nat × Nat × Nat)).all
      (fun (flags, vsmId, r, st, log) =>
        let e := ivpackRule (.ofNat 32 flags) (.ofNat 32 vsmId)
        decide (result e = (.ofNat 32 r, 0#32, st) ∧ errstatAfter e = .ofNat 32 log)) = true := by decide
theorem test_ivflags_and_ivid_vectors :
    ([(0x1234565A, 0x5A, 0x123456), (0xFFFFFFFF, 0xFF, 0xFFFFFF), (0, 0, 0), (0x100, 0, 1), (0x80000000, 0, 0x800000)] :
      List (Nat × Nat × Nat)).all
      (fun (p, flags, vsmId) => decide (result (ivflagsRule (.ofNat 32 p)) = (.ofNat 32 flags, 0#32, 0) ∧
        result (ividRule (.ofNat 32 p)) = (.ofNat 32 vsmId, 0#32, 0))) = true := by decide
theorem test_ivid_step :
    seen (step (sends 0x00000008#32 0x80000000#32 0#32 0#32)) = some (false, 0#10, false, [⟨0x00800000#32, 0#32, 0#32⟩]) := by
  decide

/-! ## CSRR and CSRW: 95 section 2.8 -/

theorem test_csrr_vectors :
    ([(0x00, 7, 0), (0x06, 0x5555, 0), (0x08, 0x400, 0), (0x09, 0xFFFFFFFF, 0), (0x0A, 0xFFFFFBFF, 0), (0x17, 0x5554, 0),
      (0x18, 0, 9), (0x20, 0, 0)] : List (Nat × Nat × Nat)).all
      (fun (a, r, st) => decide (result (csrrRule refParams a State.reset) = (.ofNat 32 r, 0#32, st))) = true := by decide
theorem test_csrw_page_size :
    seen (step (sends 0x00010011#32 5#32 0#32 0#32)) = some (false, 0b1000000000#10, false, [⟨0x80#32, 0#32, 10#32⟩]) := by
  decide
theorem test_csrw_ctrl_uses_bit_0_only :
    seen (exec (.csrw 0x20 0xFFFFFFFE#32) (ctl true 0#10 false)) = some (false, 0#10, false, [⟨1#32, 0#32, 0#32⟩]) := by decide

/-- P3 of 95 section 3, one step each: the cause that halts, the refusal, RESUME and ERRCLR. -/
theorem test_cause_halts_in_debug_mode :
    seen (exec (.ptaddr 8#32 0#32 0#32) (ctl true 0#10 false)) = some (true, 0b10#10, true, [⟨0x5554#32, 0#32, 2#32⟩]) := by
  decide
theorem test_halted_unit_refuses :
    seen (exec (.fxisinv 0xFFFFFFFF#32) (ctl true 0b10#10 true)) = some (true, 0b10#10, true, [⟨0#32, 0#32, 11#32⟩]) := by decide
theorem test_resume :
    seen (exec (.csrw 0x22 1#32) (ctl true 0b10#10 true)) = some (true, 0b10#10, false, [⟨1#32, 0#32, 0#32⟩]) := by decide
theorem test_errclr :
    seen (exec (.csrw 0x21 0x7FE#32) (ctl true 0b10#10 false)) = some (true, 0#10, false, [⟨4#32, 0#32, 0#32⟩]) := by decide
theorem test_cause_while_halted :
    seen (exec (.csrw 0xFF 0#32) (ctl true 0b100000000#10 true)) =
      some (true, 0b100000000#10, true, [⟨0#32, 0#32, 9#32⟩]) := by decide

/-- A command in flight when reset comes leaves nothing behind (R230). -/
theorem test_reset_drops_the_command_in_flight :
    seen (step { ctl true 0b11#10 true with inputs := [.reset (some ⟨0#32, 0#32, 0#32, 0#32⟩)] }) =
      some (false, 0#10, false, []) := by decide

/-! ## Images and the assembler: P3 and P4 of 95 section 3 -/

theorem test_froxel_image :
    froxelImage 0x00050003#32 0x000003FD#32 = [0x03#8, 0x00#8, 0x05#8, 0x00#8, 0xFD#8, 0x03#8, 0x00#8, 0x00#8] := by decide
theorem test_payload_image :
    payloadImage 0x000ABC01#32 = [0x01#8, 0xBC#8, 0x0A#8, 0x00#8] ∧ readByte (payloadImage 0x000ABC01#32) 0 = 0x01#8 := by
  decide

/-- The command a text line assembles to, with one earlier result known by name. -/
def assembled (text : String) : Option Command :=
  match readLine text.toList with
  | .error _ => none
  | .ok l =>
    match assemble refParams [("p", ⟨0x00050003#32, 0x000003FD#32, 0#32⟩)] l with
    | .error _ => none
    | .ok c => some c

theorem test_assemble_fxpack :
    assembled "$q = FXPACK 0x00050003, -3 ; note" = some ⟨3#32, 0x00050003#32, 0xFFFFFFFD#32, 0#32⟩ := by decide
theorem test_assemble_result_word : assembled "$z = FXUNPZ $p.R1" = some ⟨4#32, 0x000003FD#32, 0#32, 0#32⟩ := by decide
theorem test_assemble_fxinval :
    assembled "FXINVAL 0x00010002" = some ⟨3#32, 0x00010002#32, 0xFFFFFBFF#32, 0#32⟩ := by decide
theorem test_assemble_floats :
    assembled "MIPSEL.ODD f:64, f:-5.5, f:-0" = some ⟨0x202#32, 0x42800000#32, 0xC0B00000#32, 0x80000000#32⟩ := by decide
theorem test_assemble_csr_operands :
    assembled "CSRW csr:0xFF, 0" = some ⟨0x00FF0011#32, 0#32, 0#32, 0#32⟩ ∧
    assembled "PTLVL 3" = some ⟨0x00130010#32, 0#32, 0#32, 0#32⟩ ∧
    assembled "  ERRCLR" = some ⟨0x00210011#32, 0x7FE#32, 0#32, 0#32⟩ := by decide
theorem test_assemble_errors :
    assembled "CSRR csr:256" = none ∧ assembled "PTADDR 4294967296, 0, 0" = none ∧ assembled "MIPSEL f:0.1" = none := by decide

/-- The host forwards a result word by name (P2 of 95 section 3, its second line). -/
theorem test_host_forwards_results :
    ((runLine ⟨some "s1", .ptaddr, [.result "m1" .r0, .int 0, .int 0]⟩
        ⟨State.reset, [("m1", ⟨7#32, 0#32, 0#32⟩)]⟩).toOption.map fun h => h.names.head?) =
      some (some ("s1", ⟨21844#32, 0#32, 0#32⟩)) := by decide

/-! ## Witnesses: states and operands that meet the hypotheses of each obligation -/

/-- O1, O2: a read-only register; reset with and without a command in flight. -/
theorem witness_read_only_registers : csrAccess .pageSize = .ro ∧ csrAccess (.ptLevelOffset 7) = .ro := by decide
theorem witness_reset_inputs :
    ({ ctl true 1#10 true with inputs := [.reset none] } : State).inputs = .reset none :: [] ∧
    ({ ctl true 1#10 true with inputs := [.reset (some ⟨1#32, 0#32, 0#32, 0#32⟩)] } : State).inputs =
      .reset (some ⟨1#32, 0#32, 0#32, 0#32⟩) :: [] := by decide

/-- O3: an idle unit. -/
theorem witness_idle : (ctl true 1#10 false).inputs = [] := by decide

/-- O4 and O6: a command that decodes, issued to a running and to a halted unit. -/
theorem witness_step_runs :
    (sends 0x00000001#32 8#32 0#32 0#32).inputs = .command ⟨0x00000001#32, 8#32, 0#32, 0#32⟩ :: [] ∧
    decode ⟨0x00000001#32, 8#32, 0#32, 0#32⟩ = .ok (.ptaddr 8#32 0#32 0#32) := by decide

/-- O5: illegal commands the halt does not refuse: in a running unit, and of a CSR opcode in a halted one (log entry 22); the ends of
each range of unassigned opcodes. -/
theorem witness_illegal :
    decode ⟨0x00000101#32, 0#32, 0#32, 0#32⟩ = .error .modeNotZero ∧ State.reset.halted = false ∧
    decode ⟨0x80000010#32, 0#32, 0#32, 0#32⟩ = .error .reservedField ∧ (ctl true 1#10 true).halted = true ∧
    (0x80000010#32).extractLsb' 0 8 = 0x10#8 := by decide
theorem witness_unassigned_opcodes :
    ([0x00#32, 0x09#32, 0x0F#32, 0x12#32, 0xFF#32] : List Word).all
      (fun w => decide (decode ⟨w, 0#32, 0#32, 0#32⟩ = .error .unknownOpcode)) = true := by decide

/-- O6: while halted, a legal and an illegal command of other opcodes, and a CSRR and a CSRW that decode. -/
theorem witness_halted_inputs :
    (ctl true 1#10 true).halted = true ∧
    (0x00000001#32).extractLsb' 0 8 ≠ 0x10#8 ∧ (0x00000001#32).extractLsb' 0 8 ≠ 0x11#8 ∧
    (0x000000FF#32).extractLsb' 0 8 ≠ 0x10#8 ∧ (0x000000FF#32).extractLsb' 0 8 ≠ 0x11#8 ∧
    (0x00210010#32).extractLsb' 0 8 = 0x10#8 ∧ decode ⟨0x00210010#32, 0#32, 0#32, 0#32⟩ = .ok (.csrr 0x21) ∧
    (0x00220011#32).extractLsb' 0 8 = 0x11#8 ∧ decode ⟨0x00220011#32, 1#32, 0#32, 0#32⟩ = .ok (.csrw 0x22 1#32) := by decide

/-- O7, O8: commands outstanding, with more behind them; no command is the boundary. -/
theorem witness_commands :
    ({ State.reset with inputs := [.command ⟨1#32, 0#32, 0#32, 0#32⟩, .command ⟨0#32, 0#32, 0#32, 0#32⟩, .reset none] } :
      State).inputs = [⟨1#32, 0#32, 0#32, 0#32⟩, ⟨0#32, 0#32, 0#32, 0#32⟩].map .command ++ [.reset none] ∧
    State.reset.inputs = ([] : List Command).map .command ++ [] := by decide

/-- O9, O10: test_csr_255_is_well_formed and the decode tests above. -/
theorem witness_well_formed : (Instr.csrw 255 0xFFFFFFFF#32).wellFormed = true := by decide

/-- O14, O15: no cause and two causes; the two ends of the codes; a bit of the log cleared by CSRW ERRSTAT and by reset. -/
theorem witness_causes :
    ({} : Effect).causes = [] ∧ ({ causes := [.ptMip, .ptCoord] } : Effect).causes ≠ [] ∧
    Cause.illegal.code = 1 ∧ Cause.csrRo.code = 10 := by decide
theorem witness_log_bit_cleared :
    (ctl false 0b1000000001#10 false).cause.getLsbD (10 - 1) = true ∧
    (seen (step { ctl false 0b1000000001#10 false with inputs := [.command ⟨0x00210011#32, 0x400#32, 0#32, 0#32⟩] })).map
      (fun t => t.2.1) = some 0b1#10 ∧
    (seen (step { ctl false 0b1000000001#10 false with inputs := [.reset none] })).map (fun t => t.2.1) = some 0#10 := by decide

/-- O16 and every statement on a running unit: a state that is not halted, in release and in debug mode. -/
theorem witness_running : (ctl false 0#10 false).halted = false ∧ (ctl true 0b11#10 false).halted = false := by decide

/-- O17: a step that leaves the halt, by CSRW HALT and by reset. -/
theorem witness_leaves_the_halt :
    (ctl true 0b10#10 true).halted = true ∧ (1#32).getLsbD 0 = true ∧
    (seen (step { ctl true 0b10#10 true with inputs := [.command ⟨0x00220011#32, 1#32, 0#32, 0#32⟩] })).map
      (fun t => t.2.2.1) = some false ∧
    (seen (step { ctl true 0b10#10 true with inputs := [.reset none] })).map (fun t => t.2.2.1) = some false := by decide

/-- O18, O20: commands that report a cause, while halted (CSRR and CSRW) and while running. -/
theorem witness_cause_while_halted :
    seen (exec (.csrr 0x0B) (ctl true 0#10 true)) = some (true, 0b100000000#10, true, [⟨0#32, 0#32, 9#32⟩]) ∧
    seen (exec (.csrw 0x07 0#32) (ctl true 0#10 true)) = some (true, 0b1000000000#10, true, [⟨8#32, 0#32, 10#32⟩]) ∧
    (9#32 : Word) ≠ 0#32 := by decide

/-- O19: FAILFAST changed by CSRW CTRL, both ways, and by reset. -/
theorem witness_failfast_changes :
    (seen (step { ctl false 0#10 false with inputs := [.command ⟨0x00200011#32, 1#32, 0#32, 0#32⟩] })).map (fun t => t.1) =
      some true ∧
    (seen (step { ctl true 0#10 false with inputs := [.command ⟨0x00200011#32, 0#32, 0#32, 0#32⟩] })).map (fun t => t.1) =
      some false ∧
    (seen (step { ctl true 0#10 false with inputs := [.reset none] })).map (fun t => t.1) = some false := by decide

/-- O21, O25: a command that is no CSRW, with no cause and (status 11) refused. -/
theorem witness_no_csrw : ∀ (a : Nat) (v : Word), Instr.ivid 5#32 ≠ .csrw a v := by intro a v h; cases h
theorem witness_clean_command :
    seen (exec (.ivid 0x500#32) State.reset) = some (false, 0#10, false, [⟨5#32, 0#32, 0#32⟩]) := by decide

/-- O22: a halted state with a logged cause that a response reported meets the invariant, and a step goes on from it. -/
theorem witness_sound_state :
    ({ ctl true 0b10#10 true with responses := [⟨0x5554#32, 0#32, 2#32⟩] } : State).Inv ∧
    StepsOn (step { ctl true 0b10#10 true with responses := [⟨0x5554#32, 0#32, 2#32⟩] }) := by
  refine ⟨⟨by decide, ?_, by decide⟩, _, rfl⟩
  intro k hk
  have hlt : k < 10 := BitVec.lt_of_getLsbD hk
  refine ⟨⟨0x5554#32, 0#32, 2#32⟩, by simp, by decide, ?_⟩
  revert hk
  revert hlt
  revert k
  decide

/-- O24: two states with one CTL state and different ends of the port. -/
theorem witness_same_control_state :
    (ctl true 1#10 false).failfast = ({ ctl true 1#10 false with inputs := [.reset none] } : State).failfast ∧
    (ctl true 1#10 false).cause = ({ ctl true 1#10 false with inputs := [.reset none] } : State).cause ∧
    (ctl true 1#10 false).halted = ({ ctl true 1#10 false with inputs := [.reset none] } : State).halted ∧
    ctl true 1#10 false ≠ { ctl true 1#10 false with inputs := [.reset none] } := by decide

/-- O26: an instance of a system, and another beside it. -/
theorem witness_instances : [ctl true 1#10 false, State.reset][1]? = some State.reset ∧ (0 : Nat) ≠ 1 := by decide

/-- O27, O28, O31, O32: valid triples at the ends of the level and coordinate ranges, and the ends of the slot range. -/
theorem witness_valid_triples :
    (7 : Nat) < 8 ∧ validTriple 7 0 0 = true ∧ validTriple 0 127 127 = true ∧
    (7#32).toNat < 8 ∧ (0#32).toNat < 128 >>> (7#32).toNat ∧ (127#32).toNat < 128 >>> (0#32).toNat ∧
    slotTriple 0 = (0, 0, 0) ∧ slotTriple 21844 = (7, 0, 0) ∧ (21844 : Nat) < 21845 ∧
    levelOffset 7 ≤ 21844 ∧ 21844 < levelOffset (7 + 1) := by decide
theorem witness_equal_indices :
    exec (.ptaddr 2#32 5#32 3#32) State.reset = exec (.ptaddr 2#32 5#32 3#32) State.reset := rfl

/-- O34: legal parameters, the machine's own among them, exist: the ranges of R6 at both ends. -/
theorem witness_legal_ranges :
    (0 : Int) ≤ 2 ^ 31 - 1 ∧ -2 ^ 31 + (2 ^ 31 - 1 : Int) ≤ -1 ∧ (paramsFrom 0x7FFFFFFF#31 9 fun _ => 0#32).invalidPackedZ = -1 ∧
    (paramsFrom 0#31 (2 ^ 31 - 1) fun _ => 0#32).invalidPackedZ = -2 ^ 31 := by decide

/-- O37: a value at each end of each clause of the clamp. -/
theorem witness_clamp :
    (f32 0x80000000#32).le (F32.ofInteger 0) = true ∧ (F32.ofInteger 7).le (f32 0x40E00000#32) = true ∧
    f32 0x40DFFFFF#32 ≠ .nan ∧ (f32 0x40DFFFFF#32).le (F32.ofInteger 0) = false ∧
    (F32.ofInteger 7).le (f32 0x40DFFFFF#32) = false ∧ clampLevel (f32 0x40DFFFFF#32) = 6 ∧
    (f32 0x00000001#32).le (F32.ofInteger 0) = false ∧ clampLevel (f32 0x00000001#32) = 0 := by decide

/-- O39: ordered footprints, an invalid one below; the two ends of the valid ones. -/
theorem witness_footprints :
    validFootprint 0x00000001#32 = true ∧ validFootprint 0x7F800000#32 = true ∧
    (f32 0x00000001#32).le (f32 0x7F800000#32) = true ∧ validFootprint 0x80000000#32 = false ∧
    validFootprint 0x7F800001#32 = false := by decide

/-- O40: both ends of `k`, and footprints strictly between two powers, the last octave too. -/
theorem witness_powers :
    (-149 : Int) ≤ -149 ∧ (127 : Int) ≤ 127 ∧ validFootprint 0x42C80000#32 = true ∧
    (f32 0x42C80000#32).le (f32 (powerOfTwoWord 6)) = false ∧ (f32 (powerOfTwoWord (6 + 1))).le (f32 0x42C80000#32) = false ∧
    (f32 0x7F7FFFFF#32).le (f32 (powerOfTwoWord 127)) = false ∧ (0x7F7FFFFF#32 : Word) ≠ 0x7F800000#32 := by decide

/-- O41: a sum that is 0, a sum at a tie between two significands of 24 bits, and a sum that overflows. -/
theorem witness_rounding :
    (F32.finite true 5).units + (F32.finite false 5).units = 0 ∧
    (F32.finite false (2 ^ 24)).units + (F32.finite false 1).units ≠ 0 ∧
    fadd (.finite false (2 ^ 24)) (.finite false 1) = .finite false (2 ^ 24) ∧ 2 ^ 24 - 1 < 2 ^ 24 ∧
    fadd (.finite true (2 ^ 24 + 2)) (.finite true 1) = .finite true (2 ^ 24 + 4) ∧
    fadd (f32 0xFF7FFFFF#32) (f32 0xFF7FFFFF#32) = .inf true := by decide

/-- O42: a finite word. -/
theorem witness_finite : (f32 0x7F7FFFFF#32).isFinite = true ∧ (f32 0x00000001#32).isFinite = true := by decide

/-- O43 to O46: whatever the parameters of the machine, a slice for the sentinel, and both ends of the representable range. -/
theorem witness_slices :
    (word (params.invalidPackedZ - params.sliceBias)).toInt = params.invalidPackedZ - params.sliceBias ∧
    (word (-params.sliceBias)).toInt = -params.sliceBias ∧
    (word (2 ^ 31 - 1 - params.sliceBias)).toInt = 2 ^ 31 - 1 - params.sliceBias ∧
    -params.sliceBias ≤ 2 ^ 31 - 1 - params.sliceBias ∧
    (word params.invalidPackedZ).toInt = params.invalidPackedZ := by
  obtain ⟨h1, h2, h3, h4⟩ := paramsFrom_ranges Config.sliceBiasBits Config.sentinelDepth Config.log2Raw
  have h3 : -2 ^ 31 ≤ params.invalidPackedZ - params.sliceBias := h3
  have h1 : 0 ≤ params.sliceBias := h1
  have h2 : params.sliceBias ≤ 2 ^ 31 - 1 := h2
  have h4 : params.invalidPackedZ ≤ -1 := h4
  refine ⟨toInt_word _ ?_ ?_, toInt_word _ ?_ ?_, toInt_word _ ?_ ?_, ?_, toInt_word _ ?_ ?_⟩ <;> omega

/-- O43, O44: the saturating clauses, at their boundaries under REF (R7), which is a build of this model. A build whose bias
is 0 or 2^31 - 1 has no slice above or below the range, so these clauses have no witness under every build. -/
theorem witness_saturating_slices :
    (paramsFrom 1024#31 0 fun _ => 0#32).sliceBias = 1024 ∧ (paramsFrom 1024#31 0 fun _ => 0#32).invalidPackedZ = -1 ∧
    (0xFFFFFBFE#32).toInt < -1024 ∧ (0xFFFFFBFE#32).toInt ≠ -1 - 1024 ∧ 2 ^ 31 - 1 - 1024 < (0x7FFFFC00#32).toInt ∧
    (0xFFFFFFFE#32).toInt < 0 ∧ (0xFFFFFFFE#32).toInt ≠ -1 ∧ (0 : Int) ≤ (0#32).toInt := by decide

/-- O47, O49, O57: both ends of the two fields. -/
theorem witness_payload_fields :
    (0xFF#32).toNat ≤ 255 ∧ (0xFFFFFF#32).toNat ≤ 2 ^ 24 - 1 ∧ (0#32).toNat ≤ 255 ∧ (0#32).toNat ≤ 2 ^ 24 - 1 := by decide

/-- O51: the ends of the three unmapped ranges, and their mapped neighbours. -/
theorem witness_csr_ranges :
    ([0x0B, 0x0F, 0x18, 0x1F, 0x23, 0xFF] : List Nat).all (fun a => (csrAt a).isNone && decide (a < 256)) = true ∧
    ([0x00, 0x0A, 0x10, 0x17, 0x20, 0x22] : List Nat).all (fun a => (csrAt a).isSome && decide (a < 256)) = true := by decide

/-- O58: a line with all its operands, one with none, and CSR lines; the ends of the int and CSR ranges. -/
theorem witness_assembles :
    (assemble refParams [] ⟨some "i", .ptaddr, [.int 3, .int 15, .int 15]⟩).toOption = some ⟨1#32, 3#32, 15#32, 15#32⟩ ∧
    (assemble refParams [] ⟨none, .ivpack, []⟩).toOption = some ⟨6#32, 0#32, 0#32, 0#32⟩ ∧
    (assemble refParams [] ⟨none, .csrr, [.csrRaw 255]⟩).toOption = some ⟨0x00FF0010#32, 0#32, 0#32, 0#32⟩ ∧
    (assemble refParams [] ⟨none, .csrw, [.csrName .ctrl, .int 1]⟩).toOption = some ⟨0x00200011#32, 1#32, 0#32, 0#32⟩ := by
  decide
/-- O58: a name that two lines bind stands for the later one (log entry 21). -/
theorem witness_name_bound_twice :
    (dataWord [("a", ⟨2#32, 3#32, 0#32⟩), ("a", ⟨1#32, 0#32, 0#32⟩)] (.result "a" .r0)).toOption = some 2#32 := by decide
theorem witness_operand_ranges :
    (dataWord [] (.int (-2 ^ 31))).toOption = some 0x80000000#32 ∧
    (dataWord [] (.int (2 ^ 32 - 1))).toOption = some 0xFFFFFFFF#32 ∧ (dataWord [] (.int (2 ^ 32))).toOption = none ∧
    (csrNumber (.csrRaw 256)).toOption = none ∧ (csrNumber (.csrName .halt)).toOption = some 0x22 := by decide

/-- O59: both ends of the literal of PTLVL. -/
theorem witness_ptlvl : (0 : Int) ≤ 0 ∧ (7 : Int) ≤ 7 := by decide

/-- O60: a float that is exact, one that is not, and a decimal zero with a minus sign (log entry 16). -/
theorem witness_floats :
    (dataWord [] (.float (.decimal true 55 1))).toOption = some 0xC0B00000#32 ∧
    f32 0xC0B00000#32 = .finite true (11 * 2 ^ 148) ∧ 11 * 2 ^ 148 * 10 ^ 1 = 55 * 2 ^ 149 ∧
    (dataWord [] (.float (.decimal false 1 1))).toOption = none ∧
    (dataWord [] (.float (.decimal true 0 1))).toOption = some 0x80000000#32 ∧
    f32 0x80000000#32 = .finite true 0 ∧ 0 * 10 ^ 1 = 0 * 2 ^ 149 := by decide

end Sys2Proof.Tests
end

section
/-! SUPPORT. The port of a command (its inputs and responses) is not read: 00_scope.md R13. -/

namespace Sys2Proof.Machine

/-- The same CTL state behind other ends of the command port. -/
def State.withPort (s : State) (inputs : List HostInput) (responses : List Response) : State :=
  { s with inputs := inputs, responses := responses }

@[simp] theorem withPort_failfast (s : State) (ins : List HostInput) (rs : List Response) :
    (s.withPort ins rs).failfast = s.failfast := rfl
@[simp] theorem withPort_cause (s : State) (ins : List HostInput) (rs : List Response) :
    (s.withPort ins rs).cause = s.cause := rfl
@[simp] theorem withPort_halted (s : State) (ins : List HostInput) (rs : List Response) :
    (s.withPort ins rs).halted = s.halted := rfl
@[simp] theorem withPort_inputs (s : State) (ins : List HostInput) (rs : List Response) :
    (s.withPort ins rs).inputs = ins := rfl
@[simp] theorem withPort_responses (s : State) (ins : List HostInput) (rs : List Response) :
    (s.withPort ins rs).responses = rs := rfl

/-- Two states with one CTL state differ in their ports alone. -/
theorem eq_withPort_of_ctl_eq {s s' : State} (hf : s.failfast = s'.failfast) (hc : s.cause = s'.cause)
    (hh : s.halted = s'.halted) : s' = s.withPort s'.inputs s'.responses := by
  cases s
  cases s'
  cases hf
  cases hc
  cases hh
  rfl

theorem readCsr_withPort (p : Params) (r : Csr) (s : State) (ins : List HostInput) (rs : List Response) :
    readCsr p r (s.withPort ins rs) = readCsr p r s := by
  cases r <;> rfl

/-- What an instruction produces does not depend on the port. -/
theorem effectOf_withPort (i : Instr) (s : State) (ins : List HostInput) (rs : List Response) :
    effectOf i (s.withPort ins rs) = effectOf i s := by
  cases i with
  | csrr a => simp only [effectOf, csrrRule, readCsr_withPort]
  | csrw a v => simp only [effectOf, csrwRule, readCsr_withPort]
  | _ => rfl

/-- What an instruction writes to the CTL state does not depend on the port. -/
theorem writtenState_withPort (i : Instr) (s : State) (ins : List HostInput) (rs : List Response) :
    writtenState i (s.withPort ins rs) = (writtenState i s).withPort ins rs := by
  cases i with
  | csrw a v =>
    simp only [writtenState, csrwWrite]
    cases csrAt a with
    | none => rfl
    | some r => cases r <;> rfl
  | _ => rfl

/-- Settles O24: `exec` is the end-of-command steps of an effect and a written state, and neither reads the port. -/
theorem resultDependsOnCommandAndControlStateOnly : Obligations.ResultDependsOnCommandAndControlStateOnly := by
  unfold Obligations.ResultDependsOnCommandAndControlStateOnly
  intro i s s' hf hc hh
  have hs' := eq_withPort_of_ctl_eq hf hc hh
  have he : effectOf i s' = effectOf i s := by rw [hs', effectOf_withPort]
  have hw : writtenState i s' = (writtenState i s).withPort s'.inputs s'.responses := by
    rw [← writtenState_withPort, ← hs']
  refine ⟨_, _, ⟨(effectOf i s).r0, (effectOf i s).r1, statusOf (effectOf i s).causes⟩, exec_eq i s, exec_eq i s', ?_⟩
  rw [he, hw, ← hf]
  simp

end Sys2Proof.Machine
end

section
/-! SUPPORT. `LOG2` made from any free function has P1 to P4, and a function that has them comes out unchanged
(41_mip_select.md R131). -/

namespace Sys2Proof.Machine

/-- P1 and P3 on one octave: `LOG2` of a positive finite pattern lies in the bounds of its octave. -/
theorem log2From_bounds (raw : Word → Word) {w : Word} (h0 : 0 < w.toNat) (h : w.toNat < 0x7F800000) :
    (F32.ofInteger ((octaveIndex w.toNat : Int) - 149)).le (f32 (log2From raw w)) = true ∧
    (f32 (log2From raw w)).le (f32 (octaveTop ((octaveIndex w.toNat : Int) - 149))) = true := by
  have hi := octaveIndex_lt _ h
  rw [log2From_eq raw w h0 h]
  exact octaveLog2_bounds raw _ (by omega) (by omega) _ _

theorem log2From_isFinite (raw : Word → Word) {w : Word} (h0 : 0 < w.toNat) (h : w.toNat < 0x7F800000) :
    (f32 (log2From raw w)).isFinite = true := by
  have hi := octaveIndex_lt _ h
  obtain ⟨hlo, hhi⟩ := log2From_bounds raw h0 h
  exact finite_between hlo hhi rfl (octaveTop_isFinite _ (by omega) (by omega))

/-- The pattern of `2^k` starts the octave of `k`. -/
theorem powerOfTwoWord_toNat (k : Int) (h1 : -149 ≤ k) (h2 : k ≤ 127) :
    (powerOfTwoWord k).toNat = octaveBase (k + 149).toNat ∧ octaveIndex (powerOfTwoWord k).toNat = (k + 149).toNat ∧
      0 < (powerOfTwoWord k).toNat ∧ (powerOfTwoWord k).toNat < 0x7F800000 := by
  have h := powerOfTwoWord_table ⟨(k + 149).toNat, by omega⟩
  simp only [show (((k + 149).toNat : Nat) : Int) - 149 = k by omega] at h
  obtain ⟨hw, hidx, hpos, hlt⟩ := h
  rw [hw]
  exact ⟨rfl, hidx, hpos, hlt⟩

theorem log2From_powerOfTwoWord (raw : Word → Word) (k : Int) (h1 : -149 ≤ k) (h2 : k ≤ 127) :
    log2From raw (powerOfTwoWord k) = integerWord k := by
  obtain ⟨hw, hidx, hpos, hlt⟩ := powerOfTwoWord_toNat k h1 h2
  rw [log2From_eq raw _ hpos hlt, hidx, hw, Nat.sub_self, octaveLog2]
  congr 1
  omega

theorem log2From_inf (raw : Word → Word) : log2From raw 0x7F800000#32 = 0x7F800000#32 := rfl

/-- Before the last octave the top of an octave is at most the bottom of any later one. -/
theorem octaveTop_le_ofInteger {k j : Int} (h1 : -149 ≤ k) (hkj : k < j) (h2 : j ≤ 127) :
    (f32 (octaveTop k)).le (F32.ofInteger j) = true := by
  rw [octaveTop, if_pos (by omega), f32_integerWord _ (by omega) (by omega), ofInteger_le]
  omega

/-- P3 on positive finite patterns: inside an octave the running maximum rises, and octaves follow one another. -/
theorem log2From_mono_finite (raw : Word → Word) {x y : Word} (h0 : 0 < x.toNat) (hxy : x.toNat ≤ y.toNat)
    (hy : y.toNat < 0x7F800000) : (f32 (log2From raw x)).le (f32 (log2From raw y)) = true := by
  have hj := octaveIndex_lt _ hy
  rcases Nat.lt_or_eq_of_le (octaveIndex_mono h0 hxy) with hlt | heq
  · have hgap := octaveTop_le_ofInteger (k := (octaveIndex x.toNat : Int) - 149)
      (j := (octaveIndex y.toNat : Int) - 149) (by omega) (by omega) (by omega)
    exact F32.le_trans (F32.le_trans (log2From_bounds raw h0 (by omega)).2 hgap) (log2From_bounds raw (by omega) hy).1
  · have hbase := octaveBase_le x.toNat h0
    obtain ⟨d, hd⟩ := Nat.exists_eq_add_of_le
      (show x.toNat - octaveBase (octaveIndex x.toNat) ≤ y.toNat - octaveBase (octaveIndex x.toNat) by omega)
    rw [log2From_eq raw x h0 (by omega), log2From_eq raw y (by omega) hy, ← heq, hd]
    exact octaveLog2_mono raw _ (by omega) (by omega) _ _ _

/-- `LOG2` made from any function is legal (R131). -/
theorem log2From_legal (raw : Word → Word) : Log2Legal (log2From raw) where
  total x hx hne := by
    have hx := (validFootprint_iff_toNat x).1 hx
    have : x.toNat ≠ 0x7F800000 := fun h => hne (BitVec.eq_of_toNat_eq h)
    exact log2From_isFinite raw hx.1 (by omega)
  exact k h1 h2 := by rw [log2From_powerOfTwoWord raw k h1 h2, f32_integerWord k h1 (by omega)]
  monotone x y hx hy hle := by
    rw [f32_le_iff_toNat hx hy] at hle
    rw [validFootprint_iff_toNat] at hx hy
    by_cases hyi : y.toNat = 0x7F800000
    · obtain rfl : y = 0x7F800000#32 := BitVec.eq_of_toNat_eq hyi
      rw [log2From_inf, f32_inf]
      by_cases hxi : x.toNat = 0x7F800000
      · obtain rfl : x = 0x7F800000#32 := BitVec.eq_of_toNat_eq hxi
        rw [log2From_inf, f32_inf]
        rfl
      · have hfin := log2From_isFinite raw hx.1 (by omega)
        cases hv : f32 (log2From raw x) <;> simp_all [F32.isFinite, F32.le]
    · exact log2From_mono_finite raw hx.1 hle (by omega)
  infinity := log2From_inf raw

/-- Parameters made from any constants are legal (R6). -/
theorem paramsFrom_legal (bias : BitVec 31) (depth : Nat) (raw : Word → Word) :
    ParamsLegal (paramsFrom bias depth raw) := by
  obtain ⟨hnonneg, hle, hslice, hneg⟩ := paramsFrom_ranges bias depth raw
  refine ⟨hnonneg, hle, ?_, hneg, log2From_legal raw⟩
  rw [invalidSlice] at hslice
  omega

/-- Settles O33: the parameters are made from constants, and any constants give legal ones. -/
theorem buildParametersAreLegal : Obligations.BuildParametersAreLegal :=
  paramsFrom_legal _ _ _

section LegalLog2

variable {log2 : Word → Word}

/-- A legal `LOG2` of `2^k` is the pattern of `k`: P2, and a finite value has one pattern. -/
theorem Log2Legal.powerOfTwoWord_eq (h : Log2Legal log2) {k : Int} (h1 : -149 ≤ k) (h2 : k ≤ 127) :
    log2 (powerOfTwoWord k) = integerWord k := by
  have hp := h.exact k h1 h2
  exact f32_finite_inj (hp.trans (f32_integerWord k h1 (by omega)).symm) (by rw [hp]; rfl)

/-- A legal `LOG2` lies in the bounds of each octave. -/
theorem Log2Legal.octave_bounds (h : Log2Legal log2) {w : Word} (h0 : 0 < w.toNat) (hw : w.toNat < 0x7F800000) :
    (F32.ofInteger ((octaveIndex w.toNat : Int) - 149)).le (f32 (log2 w)) = true ∧
    (f32 (log2 w)).le (f32 (octaveTop ((octaveIndex w.toNat : Int) - 149))) = true := by
  have hi := octaveIndex_lt _ hw
  have hv : validFootprint w = true := (validFootprint_iff_toNat w).2 (by omega)
  generalize hk : (octaveIndex w.toNat : Int) - 149 = k
  have hk1 : -149 ≤ k := by omega
  have hk2 : k ≤ 127 := by omega
  have hidx : octaveIndex w.toNat = (k + 149).toNat := by omega
  constructor
  · obtain ⟨hb, -, hpos, hlt⟩ := powerOfTwoWord_toNat k hk1 hk2
    have hpv : validFootprint (powerOfTwoWord k) = true := (validFootprint_iff_toNat _).2 (by omega)
    rw [← h.exact k hk1 hk2]
    apply h.monotone _ _ hpv hv
    rw [f32_le_iff_toNat hpv hv, hb, ← hidx]
    exact octaveBase_le _ h0
  · rw [octaveTop]
    split
    · obtain ⟨hb, -, hpos, hlt⟩ := powerOfTwoWord_toNat (k + 1) (by omega) (by omega)
      have hpv : validFootprint (powerOfTwoWord (k + 1)) = true := (validFootprint_iff_toNat _).2 (by omega)
      rw [f32_integerWord _ (by omega) (by omega), ← h.exact (k + 1) (by omega) (by omega)]
      apply h.monotone _ _ hv hpv
      rw [f32_le_iff_toNat hv hpv, hb, show (k + 1 + 149).toNat = octaveIndex w.toNat + 1 by omega]
      exact (lt_octaveBase_succ _ h0).le
    · exact le_maxFinite _ (h.total w hv (by rintro rfl; simp at hw))

/-- Moving a legal `LOG2` into its octave keeps it. -/
theorem Log2Legal.clampToOctave_eq (h : Log2Legal log2) {w : Word} (h0 : 0 < w.toNat) (hw : w.toNat < 0x7F800000) :
    clampToOctave ((octaveIndex w.toNat : Int) - 149) (log2 w) = log2 w := by
  obtain ⟨hlo, hhi⟩ := h.octave_bounds h0 hw
  rw [clampToOctave, if_neg (by simp [hlo]), if_pos hhi]

/-- From the start of the octave of `n` up to `n` the octave is that of `n`. -/
theorem octaveIndex_between {m n : Nat} (hn : n < 0x7F800000) (hb : octaveBase (octaveIndex n) ≤ m)
    (hm : m ≤ n) : octaveIndex m = octaveIndex n := by
  obtain ⟨-, hidx, hpos, -⟩ := powerOfTwoWord_table ⟨octaveIndex n, octaveIndex_lt n hn⟩
  apply Nat.le_antisymm (octaveIndex_mono (hpos.trans_le hb) hm)
  calc octaveIndex n = octaveIndex (octaveBase (octaveIndex n)) := hidx.symm
    _ ≤ octaveIndex m := octaveIndex_mono hpos hb

/-- The running maximum of a legal `LOG2` is that function, up to any pattern of the octave. -/
theorem Log2Legal.octaveLog2_eq (h : Log2Legal log2) {w : Word} (h0 : 0 < w.toNat) (hw : w.toNat < 0x7F800000) (n : Nat)
    (hn : octaveBase (octaveIndex w.toNat) + n ≤ w.toNat) :
    octaveLog2 log2 ((octaveIndex w.toNat : Int) - 149) (octaveBase (octaveIndex w.toNat)) n =
      log2 (BitVec.ofNat 32 (octaveBase (octaveIndex w.toNat) + n)) := by
  have hi := octaveIndex_lt _ hw
  obtain ⟨hpow, -, hpos, -⟩ := powerOfTwoWord_table ⟨octaveIndex w.toNat, hi⟩
  have toNat_ofNat : ∀ m ≤ w.toNat, (BitVec.ofNat 32 m).toNat = m := fun m hm => by
    rw [BitVec.toNat_ofNat, Nat.mod_eq_of_lt (by omega)]
  induction n with
  | zero =>
    rw [octaveLog2, ← h.powerOfTwoWord_eq (by omega) (by omega)]
    congr 1
    apply BitVec.eq_of_toNat_eq
    rw [hpow, Nat.add_zero, toNat_ofNat _ (by omega)]
  | succ n ih =>
    generalize hbase : octaveBase (octaveIndex w.toNat) = base at *
    have hx := toNat_ofNat (base + n) (by omega)
    have hy := toNat_ofNat (base + (n + 1)) hn
    have hidx : octaveIndex (BitVec.ofNat 32 (base + (n + 1))).toNat = octaveIndex w.toNat :=
      octaveIndex_between hw (by omega) (by omega)
    have hclamp : clampToOctave _ (log2 (BitVec.ofNat 32 (base + (n + 1)))) = _ :=
      h.clampToOctave_eq (by omega) (by omega)
    have hvx : validFootprint (BitVec.ofNat 32 (base + n)) = true := (validFootprint_iff_toNat _).2 (by omega)
    have hvy : validFootprint (BitVec.ofNat 32 (base + (n + 1))) = true := (validFootprint_iff_toNat _).2 (by omega)
    have hrises := h.monotone _ _ hvx hvy ((f32_le_iff_toNat hvx hvy).2 (by omega))
    rw [hidx] at hclamp
    rw [octaveLog2, ih (by omega), hclamp]
    exact if_pos hrises

/-- A legal `LOG2` made again from itself is the same function. -/
theorem Log2Legal.log2From_eq_self (h : Log2Legal log2) : log2From log2 = log2 := by
  funext w
  by_cases hv : validFootprint w = true
  · have hpat := (validFootprint_iff_toNat w).1 hv
    by_cases hinf : w.toNat = 0x7F800000
    · obtain rfl : w = 0x7F800000#32 := BitVec.eq_of_toNat_eq hinf
      rw [log2From_inf, h.infinity]
    · have hb := octaveBase_le w.toNat hpat.1
      rw [log2From_eq log2 w hpat.1 (by omega), h.octaveLog2_eq hpat.1 (by omega) _ (by omega),
        Nat.add_sub_cancel' hb, BitVec.ofNat_toNat, BitVec.setWidth_eq]
  · rw [log2From, if_pos (by simpa using hv)]

end LegalLog2

/-- Every bias and sentinel in the ranges of R6 comes from some constants. -/
theorem exists_integer_constants (p : Params) (h : ParamsLegal p) :
    ∃ bias depth, ∀ raw, paramsFrom bias depth raw = ⟨p.sliceBias, p.invalidPackedZ, log2From raw⟩ := by
  obtain ⟨hnonneg, hle, hge, hneg, -⟩ := h
  have hbias : (BitVec.ofNat 31 p.sliceBias.toNat).toNat = p.sliceBias.toNat := by
    rw [BitVec.toNat_ofNat, Nat.mod_eq_of_lt (by omega)]
  refine ⟨BitVec.ofNat 31 p.sliceBias.toNat, (-1 - p.invalidPackedZ).toNat, fun raw => ?_⟩
  rw [paramsFrom, hbias, Nat.mod_eq_of_lt (by omega)]
  congr 1 <;> omega

/-- Settles O34: the bias and the sentinel have their constants, and `LOG2` is made from itself. -/
theorem everyLegalBuildIsCovered : Obligations.EveryLegalBuildIsCovered := by
  unfold Obligations.EveryLegalBuildIsCovered
  intro p hp
  obtain ⟨bias, depth, hfrom⟩ := exists_integer_constants p hp
  exact ⟨bias, depth, p.log2, by rw [hfrom, hp.log2_legal.log2From_eq_self]⟩

end Sys2Proof.Machine
end

section
/-! SUPPORT. `fadd` (00_scope.md R11): its rounding is to the nearest magnitude of 24 significant bits, ties to even, and
its special values are those of IEEE 754. -/

namespace Sys2Proof.Machine

/-- The distance of two magnitudes. -/
def magDist (a b : Nat) : Nat := ((a : Int) - b).natAbs

/-- Rounding is to the nearest magnitude of 24 significant bits, and at a tie to the one whose last bit is 0: no other
such magnitude lies inside the cell of `n`, whose nearer end `roundMag` takes. -/
theorem roundMag_nearest (n : Nat) {q e : Nat} (hq : q < 2 ^ 24) :
    magDist (roundMag n) n ≤ magDist (q * 2 ^ e) n ∧
    (magDist (roundMag n) n = magDist (q * 2 ^ e) n → q * 2 ^ e ≠ roundMag n →
      roundMag n / 2 ^ (n.log2 - 23) % 2 = 0) := by
  rcases Nat.lt_or_ge n (2 ^ 24) with hn | hn
  · rw [roundMag_of_lt hn]
    simp only [magDist]
    omega
  · obtain ⟨sh, c, r, hsh, hlog, hcell, hr, hc, -, hround⟩ := roundMag_of_ge hn
    have hend : (c + 1) * 2 ^ sh = c * 2 ^ sh + 2 ^ sh := by ring
    have hhalf : 2 ^ sh = 2 * 2 ^ (sh - 1) := by rw [← Nat.pow_succ']; congr 1; omega
    have hout := cell_has_no_inner sh c q e hsh hc hq.le
    have hlast : ∀ k, k * 2 ^ sh / 2 ^ sh = k := fun k => Nat.mul_div_cancel k (by positivity)
    rw [← hlog, hround]
    simp only [magDist]
    split
    · rw [hlast]; omega
    · rw [hlast]; omega

/-- Settles O41: the sum is exact before `roundMag`, which rounds it to the nearest. -/
theorem roundingIsToNearestTiesToEven : Obligations.RoundingIsToNearestTiesToEven := by
  unfold Obligations.RoundingIsToNearestTiesToEven
  intro n m a b sum
  constructor
  · exact fun h0 => if_pos h0
  · intro hne
    refine ⟨roundMag sum.natAbs, ?_, roundMag_short _, fun q e hq => roundMag_nearest _ hq⟩
    exact if_neg hne

/-! ## Special values -/

theorem f32_negZero : f32 0x80000000#32 = .finite true 0 := by decide

/-- Adding -0 changes no value that a word has (R136). -/
theorem fadd_negZero (w : Word) : fadd (f32 w) (f32 0x80000000#32) = f32 w := by
  rw [f32_negZero]
  cases hw : f32 w with
  | nan => rfl
  | inf s => rfl
  | finite neg n =>
    obtain ⟨hround, hlt⟩ := of_decide_eq_true (representable_of_f32 hw)
    rw [fadd, addFinite_zero_right neg n true hround hlt]
    simp

theorem addFinite_comm (n : Bool) (a : Nat) (m : Bool) (b : Nat) : addFinite n a m b = addFinite m b n a := by
  simp only [addFinite, Int.add_comm (F32.finite n a).units, Bool.and_comm n]

theorem fadd_comm (x y : F32) : fadd x y = fadd y x := by
  cases x with
  | nan => cases y <;> rfl
  | inf s =>
    cases y with
    | nan => rfl
    | inf t => cases s <;> cases t <;> rfl
    | finite m b => rfl
  | finite n a =>
    cases y with
    | nan => rfl
    | inf t => rfl
    | finite m b => exact addFinite_comm n a m b

/-- A finite value with its sign bit flipped is the value of the other sign. -/
theorem f32_flip_sign {w : Word} {neg : Bool} {n : Nat} (h : f32 w = .finite neg n) :
    f32 (w ^^^ 0x80000000#32) = .finite (!neg) n := by
  have hexp : exponentField (w ^^^ 0x80000000#32) = exponentField w := by
    simp [exponentField, BitVec.extractLsb'_xor]
  have hfrac : fractionField (w ^^^ 0x80000000#32) = fractionField w := by
    simp [fractionField, BitVec.extractLsb'_xor]
  have hmsb : (w ^^^ 0x80000000#32).msb = !w.msb := by
    rw [BitVec.msb_xor]; exact Bool.xor_true _
  simp only [f32] at h
  rw [f32, hexp, hfrac, hmsb]
  split at h
  · split at h <;> cases h
  · rename_i hne
    rw [if_neg hne]
    split at h
    · rename_i h0
      injection h with hs hn
      rw [if_pos h0, hs, hn]
    · rename_i h0
      injection h with hs hn
      rw [if_neg h0, hs, hn]

/-- A finite value and its opposite have the sum +0. -/
theorem addFinite_opposite (neg : Bool) (n : Nat) : addFinite neg n (!neg) n = .finite false 0 := by
  cases neg <;> simp [addFinite, F32.units]

/-- Settles O42, each special value by its own lemma. -/
theorem faddOfSpecialValues : Obligations.FaddOfSpecialValues := by
  unfold Obligations.FaddOfSpecialValues
  refine ⟨fadd_negZero, fadd_comm, fun x => ?_, fun n s m => ⟨rfl, ?_, ?_⟩, fun w hfin => ?_⟩
  · cases x <;> rfl
  · exact if_pos rfl
  · cases s <;> rfl
  · obtain ⟨hw, -⟩ := f32_of_isFinite w hfin
    rw [f32_flip_sign hw, hw]
    exact addFinite_opposite _ _

end Sys2Proof.Machine
end

section
/-! SUPPORT. CSRR and CSRW of each kind of register as whole next states (44_csr.md R185, R186), and what 10_state.md says
of the registers and of the CTL state. -/

namespace Sys2Proof.Machine

/-- The end of a command that raised nothing. -/
theorem endOfCommand_clean (debug : Bool) (r0 r1 : Word) (s : State) :
    endOfCommand debug { r0 := r0, r1 := r1 } s = { s with responses := s.responses ++ [⟨r0, r1, 0#32⟩] } := by
  simp [endOfCommand, haltsWhenDebug]

/-- The end of a command that raised one cause that is logged (R202, R203, R206). -/
theorem endOfCommand_one_cause (debug : Bool) (r0 r1 : Word) {c : Cause} (hc : c.isLogged = true) (s : State) :
    endOfCommand debug { r0 := r0, r1 := r1, causes := [c] } s =
      { s with
        cause := s.cause ||| c.logBit
        halted := s.halted || debug
        responses := s.responses ++ [⟨r0, r1, BitVec.ofNat 32 c.code⟩] } := by
  simp [endOfCommand, haltsWhenDebug, hc, statusOf]

/-! ## CSRR and CSRW by kind of register -/

/-- CSRR of a mapped register reads it and does nothing else. -/
theorem exec_csrr_mapped {a : Nat} {r : Csr} (h : csrAt a = some r) (s : State) :
    exec (.csrr a) s = .next { s with responses := s.responses ++ [⟨readCsr params r s, 0#32, 0#32⟩] } := by
  rw [exec_eq, ← endOfCommand_clean s.failfast]
  simp only [effectOf, csrrRule, h, writtenState]

@[simp] theorem writeCsr_responses (r : Csr) (v : Word) (s : State) : (writeCsr r v s).responses = s.responses := by
  cases r <;> rfl

/-- CSRW of a register that is not read-only writes it and returns the old word. -/
theorem exec_csrw_writable {a : Nat} {r : Csr} (h : csrAt a = some r) (hr : csrAccess r ≠ .ro) (s : State) (v : Word) :
    exec (.csrw a v) s = .next { writeCsr r v s with
      responses := s.responses ++ [⟨readCsr params r s, 0#32, 0#32⟩] } := by
  rw [exec_eq, ← writeCsr_responses r v s, ← endOfCommand_clean s.failfast]
  simp only [effectOf, csrwRule, h, hr, writtenState, csrwWrite, if_false]

/-- CSRW of a read-only register returns its word and raises cause 10. -/
theorem exec_csrw_readOnly {a : Nat} {r : Csr} (h : csrAt a = some r) (hr : csrAccess r = .ro) (s : State) (v : Word) :
    exec (.csrw a v) s = .next { s with
      cause := s.cause ||| 0b1000000000#10
      halted := s.halted || s.failfast
      responses := s.responses ++ [⟨readCsr params r s, 0#32, 10#32⟩] } := by
  have hend := endOfCommand_one_cause s.failfast (readCsr params r s) 0#32 (c := .csrRo) rfl s
  rw [Cause.logBit_eq] at hend
  rw [exec_eq]
  simp only [effectOf, csrwRule, h, hr, writtenState, csrwWrite, writeCsr_ro hr, if_true, hend, Cause.code]

/-- The next state of a command to an unmapped address: zeros, with cause 9 (R48). -/
def unmappedNext (s : State) : State :=
  { s with
    cause := s.cause ||| 0b100000000#10
    halted := s.halted || s.failfast
    responses := s.responses ++ [⟨0#32, 0#32, 9#32⟩] }

theorem endOfCommand_csrAddr (s : State) : endOfCommand s.failfast { causes := [.csrAddr] } s = unmappedNext s := by
  rw [endOfCommand_one_cause _ _ _ rfl, Cause.logBit_eq]
  rfl

/-- CSRR and CSRW of an unmapped address do the same. -/
theorem exec_csr_unmapped {a : Nat} (h : csrAt a = none) (s : State) (v : Word) :
    exec (.csrr a) s = .next (unmappedNext s) ∧ exec (.csrw a v) s = .next (unmappedNext s) := by
  rw [exec_eq, exec_eq, ← endOfCommand_csrAddr]
  simp only [effectOf, csrrRule, csrwRule, h, writtenState, csrwWrite, and_self]

/-! ## The map and the constant registers -/

/-- The unmapped addresses of the CSR space are the three ranges of R48. -/
theorem csrAt_eq_none_iff {a : Nat} (ha : a < 256) :
    csrAt a = none ↔ (0x0B ≤ a ∧ a ≤ 0x0F) ∨ (0x18 ≤ a ∧ a ≤ 0x1F) ∨ (0x23 ≤ a ∧ a ≤ 0xFF) := by
  rcases Nat.lt_or_ge a 0x23 with hlow | hhigh
  · have table : ∀ b : Fin 0x23, csrAt b.val = none ↔
        (0x0B ≤ b.val ∧ b.val ≤ 0x0F) ∨ (0x18 ≤ b.val ∧ b.val ≤ 0x1F) ∨ (0x23 ≤ b.val ∧ b.val ≤ 0xFF) := by decide
    exact table ⟨a, hlow⟩
  · simp only [csrAt_high hhigh, true_iff]
    omega

/-- The registers of R36 to R44 and R50, in the order of their addresses. -/
def constantCsrs : List Csr :=
  [.pageSizeLog2, .pageSize, .l0DimPagesLog2, .l0DimPages, .maxMipLevels, .virtualMaxRes, .ptCapacity, .invFlagBits,
   .sliceBias, .invalidPackedZ, .invalidSlice, .ptLevelOffset 0, .ptLevelOffset 1, .ptLevelOffset 2, .ptLevelOffset 3,
   .ptLevelOffset 4, .ptLevelOffset 5, .ptLevelOffset 6, .ptLevelOffset 7]

theorem csrAccess_of_mem_constantCsrs : ∀ r ∈ constantCsrs, csrAccess r = .ro := by decide

/-- A constant register reads its value and refuses writes, in every state. -/
theorem exec_csr_constant {r : Csr} (hr : r ∈ constantCsrs) (s : State) (v : Word) :
    exec (.csrr (csrAddress r)) s = .next { s with
      responses := s.responses ++ [⟨readCsr params r State.reset, 0#32, 0#32⟩] } ∧
    exec (.csrw (csrAddress r) v) s = .next { s with
      cause := s.cause ||| 0b1000000000#10
      halted := s.halted || s.failfast
      responses := s.responses ++ [⟨readCsr params r State.reset, 0#32, 10#32⟩] } := by
  have hro := csrAccess_of_mem_constantCsrs r hr
  rw [readCsr_ro hro params State.reset s]
  exact ⟨exec_csrr_mapped (csrAt_csrAddress r) s, exec_csrw_readOnly (csrAt_csrAddress r) hro s v⟩

/-- Settles O50: the table of the statement is that of the constant registers, each read in the reset state. -/
theorem constantRegistersReadAndRefuseWrites : Obligations.ConstantRegistersReadAndRefuseWrites := by
  unfold Obligations.ConstantRegistersReadAndRefuseWrites
  intro s v entry hentry
  change entry ∈ constantCsrs.map fun r => (csrAddress r, readCsr params r State.reset) at hentry
  obtain ⟨r, hr, rfl⟩ := List.mem_map.1 hentry
  exact exec_csr_constant hr s v

/-- Settles O51: an unmapped address raises cause 9; a mapped one reads with status 0, and its write answers 0 or 10. -/
theorem unmappedCsrAddressesAreExactlyTheListed : Obligations.UnmappedCsrAddressesAreExactlyTheListed := by
  unfold Obligations.UnmappedCsrAddressesAreExactlyTheListed
  intro s a v ha
  dsimp only
  split
  · rename_i hlisted
    exact exec_csr_unmapped ((csrAt_eq_none_iff ha).2 hlisted) s v
  · rename_i hother
    obtain ⟨r, hr⟩ := Option.ne_none_iff_exists'.1 (mt (csrAt_eq_none_iff ha).1 hother)
    refine ⟨⟨_, _, exec_csrr_mapped hr s, rfl, rfl⟩, ?_⟩
    by_cases hro : csrAccess r = .ro
    · exact ⟨_, _, exec_csrw_readOnly hr hro s v, rfl, (by decide : 10#32 ≠ 9#32)⟩
    · exact ⟨_, _, exec_csrw_writable hr hro s v, rfl, (by decide : 0#32 ≠ 9#32)⟩

/-! ## The three registers of the CTL state -/

/-- ERRSTAT as its fields (R46). -/
theorem errstatWord_eq_append (s : State) : errstatWord s = 0#21 ++ s.cause ++ 0#1 := by
  apply BitVec.eq_of_getLsbD_eq
  intro k hk
  rw [errstatWord_getLsbD]
  simp only [BitVec.getLsbD_append]
  cases k with
  | zero => rfl
  | succ k => by_cases hlog : k < 10 <;> simp [hlog]

/-- The write of ERRSTAT clears the log where bits 10:1 of the value are 1 (R46). -/
theorem writeErrstat_cause_eq (v : Word) (s : State) : (writeErrstat v s).cause = s.cause &&& ~~~(v.extractLsb' 1 10) := by
  rw [writeErrstat_cause]
  apply BitVec.eq_of_getLsbD_eq
  intro k hk
  have hmask : (0x7FE#32).getLsbD (1 + k) = true := (by decide : ∀ j < 10, (0x7FE#32).getLsbD (1 + j) = true) k hk
  have hold : (errstatWord s).getLsbD (1 + k) = s.cause.getLsbD k := by
    rw [errstatWord_getLsbD, decide_eq_true (by omega), Bool.true_and, Nat.add_sub_cancel_left]
  have hword : 1 + k < 32 := by omega
  simp only [BitVec.getLsbD_extractLsb', BitVec.getLsbD_and, BitVec.getLsbD_not, hmask, hold, hk, hword, decide_true,
    Bool.true_and, Bool.and_true]

/-- Settles O54: CSRW of ERRSTAT, with the word and the write as their bits. -/
theorem csrwErrstatClearsTheWrittenOnes : Obligations.CsrwErrstatClearsTheWrittenOnes := by
  unfold Obligations.CsrwErrstatClearsTheWrittenOnes
  intro s v
  rw [exec_csrw_writable (r := .errstat) rfl (by decide), ← writeErrstat_cause_eq, ← errstatWord_eq_append]
  rfl

/-- Settles O53: CSRW of CTRL. -/
theorem csrwCtrlSetsFailfast : Obligations.CsrwCtrlSetsFailfast :=
  fun s v => exec_csrw_writable (r := .ctrl) rfl (by decide) s v

/-- Settles O55: CSRW of HALT. -/
theorem csrwHaltClearsHalted : Obligations.CsrwHaltClearsHalted :=
  fun s v => exec_csrw_writable (r := .halt) rfl (by decide) s v

/-! ## FAILFAST over a step -/

/-- Of the instructions, only a CSRW to CTRL changes FAILFAST, to bit 0 of its value (R45, R204). -/
theorem exec_failfast_ne {i : Instr} {s t : State} (h : exec i s = .next t) (hne : t.failfast ≠ s.failfast) :
    ∃ v, i = .csrw 0x20 v ∧ v.getLsbD 0 = t.failfast := by
  rw [exec_next_iff.1 h, endOfCommand_failfast] at hne ⊢
  rcases writtenState_cases i s with hw | ⟨v, rfl, hw⟩ | ⟨v, -, hw⟩ | ⟨v, -, hw⟩
  · rw [hw] at hne; exact absurd rfl hne
  · exact ⟨v, rfl, by rw [hw, writeCtrl_failfast]⟩
  · rw [hw, writeErrstat_failfast] at hne; exact absurd rfl hne
  · rw [hw, writeHalt_failfast] at hne; exact absurd rfl hne

/-- A command that does not decode keeps FAILFAST. -/
theorem refuseCommand_failfast {cmd : Word} {s t : State} (h : refuseCommand cmd s = .next t) :
    t.failfast = s.failfast := by
  rw [refuseCommand_eq] at h
  injection h with h
  rw [← h, endOfCommand_failfast]

/-- Settles O19, by what a step can do. -/
theorem failfastChangesOnlyByCsrwCtrlOrReset : Obligations.FailfastChangesOnlyByCsrwCtrlOrReset := by
  unfold Obligations.FailfastChangesOnlyByCsrwCtrlOrReset
  intro s t hstep hne
  rcases step_cases hstep with ⟨-, rfl⟩ | ⟨inFlight, rest, hin, -⟩ | ⟨c, rest, i, hin, hdec, hexec⟩ |
    ⟨c, rest, e, hin, -, hrefuse⟩
  · exact absurd rfl hne
  · exact .inl ⟨inFlight, rest, hin⟩
  · obtain ⟨v, rfl, hv⟩ := exec_failfast_ne hexec hne
    exact .inr ⟨c, rest, v, hin, hdec, hv⟩
  · exact absurd (refuseCommand_failfast hrefuse) hne

/-! ## The reset state -/

/-- Settles O1: the fields by definition, the registers because they do not read the state. -/
theorem resetStateHasTheStatedValues : Obligations.ResetStateHasTheStatedValues :=
  ⟨rfl, rfl, rfl, fun _ s hro => readCsr_ro hro params State.reset s⟩

/-- Settles O23: no response, no log bit and no halt is there to account for. -/
theorem resetStateIsSound : Obligations.ResetStateIsSound where
  responses_wellFormed := by simp [State.reset]
  logged_reported := by simp [State.reset]
  halted_reported := by simp [State.reset]

end Sys2Proof.Machine
end

section
/-! SUPPORT. What 20_memory.md says of results and images: a command without a cause can be issued again (R67), and the
bytes of the two descriptors with the views of their readers (R62 to R65). -/

namespace Sys2Proof.Machine

/-! ## A command without a cause, issued again -/

/-- Status 0 means that the command raised nothing (R202). -/
theorem statusOf_eq_zero_iff {cs : List Cause} : statusOf cs = 0#32 ↔ cs = [] := by
  cases cs with
  | nil => simp
  | cons c cs =>
    have hcode : (statusOf (c :: cs)).toNat ≠ 0 := by
      rw [statusOf_toNat_cons]
      rcases (foldl_min_code cs c.code).1 with h | ⟨d, -, h⟩
      · have := c.code_bounds; omega
      · have := d.code_bounds; omega
    exact iff_of_false (fun h => hcode (by rw [h]; rfl)) (List.cons_ne_nil c cs)

/-- The end-of-command steps of an effect without causes change only the responses. -/
theorem endOfCommand_of_no_causes (debug : Bool) {e : Effect} (he : e.causes = []) (s : State) :
    endOfCommand debug e s = s.withPort s.inputs (s.responses ++ [⟨e.r0, e.r1, 0#32⟩]) := by
  obtain ⟨r0, r1, causes⟩ := e
  subst he
  exact endOfCommand_clean debug r0 r1 s

/-- Settles O25: the command leaves the CTL state as it was, and the effect depends on nothing else. -/
theorem cleanCommandGivesTheSameResponseTwice : Obligations.CleanCommandGivesTheSameResponseTwice := by
  unfold Obligations.CleanCommandGivesTheSameResponseTwice
  intro i s t r hi hexec hr hst
  obtain rfl := exec_next_iff.1 hexec
  rw [writtenState_other s hi, endOfCommand_responses, List.append_cancel_left_eq, List.singleton_inj] at hr
  subst hr
  have hend := endOfCommand_of_no_causes s.failfast (statusOf_eq_zero_iff.1 hst) s
  rw [writtenState_other s hi, hend]
  refine ⟨_, exec_eq i _, ?_⟩
  rw [effectOf_withPort, endOfCommand_responses, writtenState_responses]

/-! ## The bytes of a word -/

/-- The four bytes of a word, high byte first, are the word (R62). -/
theorem append_byteOf (w : Word) : (byteOf w 3 ++ byteOf w 2) ++ (byteOf w 1 ++ byteOf w 0) = w := by
  have hhigh : byteOf w 3 ++ byteOf w 2 = w.extractLsb' 16 16 :=
    BitVec.extractLsb'_append_extractLsb'_eq_extractLsb' rfl
  have hlow : byteOf w 1 ++ byteOf w 0 = w.extractLsb' 0 16 :=
    BitVec.extractLsb'_append_extractLsb'_eq_extractLsb' rfl
  rw [hhigh, hlow]
  exact (BitVec.extractLsb'_append_extractLsb'_eq_extractLsb' rfl).trans BitVec.extractLsb'_eq_self

/-- Settles O56: the bytes are those of the two words, and a word read appends the four of one word. -/
theorem froxelImageIsXyThenZLittleEndian : Obligations.FroxelImageIsXyThenZLittleEndian :=
  fun xy z => ⟨rfl, append_byteOf xy, append_byteOf z⟩

/-! ## The payload IVPACK returns -/

/-- The result word of IVPACK: the low 24 bits of the id over the low byte of the flags (R172). -/
theorem ivpackRule_r0_eq_append (flags vsmId : Word) :
    (ivpackRule flags vsmId).r0 = vsmId.extractLsb' 0 24 ++ flags.extractLsb' 0 8 := by
  have hid : vsmId.toNat &&& 0xFFFFFF = vsmId.toNat % 2 ^ 24 := Nat.and_two_pow_sub_one_eq_mod _ 24
  have hflags : flags.toNat &&& 0xFF = flags.toNat % 2 ^ 8 := Nat.and_two_pow_sub_one_eq_mod _ 8
  have hfits : vsmId.toNat % 2 ^ 24 * 2 ^ 8 < 2 ^ 32 := by omega
  apply BitVec.eq_of_toNat_eq
  rw [BitVec.toNat_append (x := vsmId.extractLsb' 0 24)]
  simp [-Nat.reducePow, ivpackRule, invFlagBits, hid, hflags, Nat.shiftLeft_eq, Nat.mod_eq_of_lt hfits]

/-- The bytes of a 24-bit id over a byte of flags, low byte first (R64). -/
theorem payloadImage_append (id : BitVec 24) (flags : Byte) :
    payloadImage (id ++ flags) = [flags, id.extractLsb' 0 8, id.extractLsb' 8 8, id.extractLsb' 16 8] := by
  have hflags : byteOf (id ++ flags) 0 = flags := BitVec.extractLsb'_append_eq_right
  have hid (k : Nat) : byteOf (id ++ flags) (k + 1) = id.extractLsb' (8 * k) 8 :=
    BitVec.extractLsb'_append_eq_of_le (by omega)
  simp only [payloadImage, wordImage, hflags, hid]

/-- Settles O57: the image is that of the result word as an append, and each read picks bytes of it. -/
theorem payloadImageIsFlagsThenId : Obligations.PayloadImageIsFlagsThenId := by
  unfold Obligations.PayloadImageIsFlagsThenId
  intro s flags vsmId hrun _ _
  have himage : payloadImage (ivpackRule flags vsmId).r0 = [flags.extractLsb' 0 8, vsmId.extractLsb' 0 8,
      vsmId.extractLsb' 8 8, vsmId.extractLsb' 16 8] := by
    rw [ivpackRule_r0_eq_append, payloadImage_append]
    simp
  refine ⟨_, _, exec_eq _ s, rfl, ?_⟩
  have heffect : effectOf (.ivpack flags vsmId) s = ivpackRule flags vsmId := unitEffect_running hrun _
  rw [heffect, himage]
  exact ⟨rfl, rfl, rfl, fun _ _ => rfl⟩

end Sys2Proof.Machine
end

section
/-! SUPPORT. The decoder against the opcode table (30_encoding.md R81 to R87): the word of each row decodes to the row's
instruction, nothing else decodes, and the encoder writes those words. -/

namespace Sys2Proof

/-! ## The word of a command and its fields -/

/-- The command word with these fields and zero reserved fields (R81). -/
def commandWord (csr : BitVec 8) (mode : BitVec 2) (op : BitVec 8) : Word := 0#8 ++ csr ++ 0#6 ++ mode ++ op

section Fields

variable (csr : BitVec 8) (mode : BitVec 2) (op : BitVec 8)

@[simp] theorem opField_commandWord : opField (commandWord csr mode op) = op :=
  BitVec.extractLsb'_append_eq_right

@[simp] theorem modeField_commandWord : modeField (commandWord csr mode op) = mode :=
  (BitVec.extractLsb'_append_eq_of_le (by decide)).trans BitVec.extractLsb'_append_eq_right

@[simp] theorem rsv0Field_commandWord : rsv0Field (commandWord csr mode op) = 0#6 :=
  (BitVec.extractLsb'_append_eq_of_le (by decide)).trans <|
    (BitVec.extractLsb'_append_eq_of_le (by decide)).trans BitVec.extractLsb'_append_eq_right

@[simp] theorem csrField_commandWord : csrField (commandWord csr mode op) = csr :=
  (BitVec.extractLsb'_append_eq_of_le (by decide)).trans <|
    (BitVec.extractLsb'_append_eq_of_le (by decide)).trans <|
      (BitVec.extractLsb'_append_eq_of_le (by decide)).trans BitVec.extractLsb'_append_eq_right

@[simp] theorem rsv1Field_commandWord : rsv1Field (commandWord csr mode op) = 0#8 :=
  (BitVec.extractLsb'_append_eq_of_le (by decide)).trans <|
    (BitVec.extractLsb'_append_eq_of_le (by decide)).trans <|
      (BitVec.extractLsb'_append_eq_of_le (by decide)).trans BitVec.extractLsb'_append_eq_left

end Fields

/-- The words whose reserved fields are 0. -/
theorem eq_commandWord {w : Word} (h1 : rsv1Field w = 0#8) (h0 : rsv0Field w = 0#6) :
    w = commandWord (csrField w) (modeField w) (opField w) := by
  have hw := cmd_eq_fields w
  rwa [h1, h0] at hw

/-- The word of a CSR command as R81 writes it out. -/
theorem append_eq_commandWord : ∀ csr : BitVec 8,
    0#8 ++ csr ++ 0x0010#16 = commandWord csr 0#2 0x10#8 ∧ 0#8 ++ csr ++ 0x0011#16 = commandWord csr 0#2 0x11#8 := by
  decide

/-- The word the encoder writes for a CSR command. -/
theorem withCsrField_toNat : ∀ csr : BitVec 8,
    withCsrField 0x00000010#32 csr.toNat = commandWord csr 0#2 0x10#8 ∧
    withCsrField 0x00000011#32 csr.toNat = commandWord csr 0#2 0x11#8 := by
  decide

/-! ## The word of each row decodes to its instruction (R82, R85) -/

/-- The word passes the checks of R86 as one of this opcode. -/
def Opcode.accepts (op : Opcode) (w : Word) : Bool :=
  decide (Opcode.ofBits (opField w) = some op ∧ rsv1Field w = 0#8 ∧ rsv0Field w = 0#6 ∧
    (op = .mipsel → modeField w ≠ 3#2) ∧ (op ≠ .mipsel → modeField w = 0#2) ∧
    (isCsrOpcode (opField w) = false → csrField w = 0#8))

theorem decode_ok_iff_accepts {c : Command} {i : Instr} :
    decode c = .ok i ↔ ∃ op : Opcode, op.accepts c.cmd = true ∧ i = op.instr c := by
  simp only [decode_ok_iff, Opcode.accepts, decide_eq_true_eq, and_assoc]

theorem decode_of_accepts {op : Opcode} {w : Word} (h : op.accepts w = true) (a b c : Word) :
    decode ⟨w, a, b, c⟩ = .ok (op.instr ⟨w, a, b, c⟩) :=
  decode_ok_iff_accepts.2 ⟨op, h, rfl⟩

section Rows

variable (a b c : Word)

theorem decode_ptaddr : decode ⟨0x00000001#32, a, b, c⟩ = .ok (.ptaddr a b c) :=
  decode_of_accepts (op := .ptaddr) (by decide) a b c

theorem decode_mipselAny : decode ⟨0x00000002#32, a, b, c⟩ = .ok (.mipselAny a b c) := by
  rw [decode_of_accepts (op := .mipsel) (by decide)]; simp [Opcode.instr, modeField]

theorem decode_mipselEven : decode ⟨0x00000102#32, a, b, c⟩ = .ok (.mipselEven a b c) := by
  rw [decode_of_accepts (op := .mipsel) (by decide)]; simp [Opcode.instr, modeField]

theorem decode_mipselOdd : decode ⟨0x00000202#32, a, b, c⟩ = .ok (.mipselOdd a b c) := by
  rw [decode_of_accepts (op := .mipsel) (by decide)]; simp [Opcode.instr, modeField]

theorem decode_fxpack : decode ⟨0x00000003#32, a, b, c⟩ = .ok (.fxpack a b) :=
  decode_of_accepts (op := .fxpack) (by decide) a b c

theorem decode_fxunpz : decode ⟨0x00000004#32, a, b, c⟩ = .ok (.fxunpz a) :=
  decode_of_accepts (op := .fxunpz) (by decide) a b c

theorem decode_fxisinv : decode ⟨0x00000005#32, a, b, c⟩ = .ok (.fxisinv a) :=
  decode_of_accepts (op := .fxisinv) (by decide) a b c

theorem decode_ivpack : decode ⟨0x00000006#32, a, b, c⟩ = .ok (.ivpack a b) :=
  decode_of_accepts (op := .ivpack) (by decide) a b c

theorem decode_ivflags : decode ⟨0x00000007#32, a, b, c⟩ = .ok (.ivflags a) :=
  decode_of_accepts (op := .ivflags) (by decide) a b c

theorem decode_ivid : decode ⟨0x00000008#32, a, b, c⟩ = .ok (.ivid a) :=
  decode_of_accepts (op := .ivid) (by decide) a b c

theorem decode_csrr (csr : BitVec 8) :
    decode ⟨commandWord csr 0#2 0x10#8, a, b, c⟩ = .ok (.csrr csr.toNat) := by
  rw [decode_of_accepts (op := .csrr) (by simp [Opcode.accepts, opcode_ofBits_iff, isCsrOpcode]), Opcode.instr,
    csrField_commandWord]

theorem decode_csrw (csr : BitVec 8) :
    decode ⟨commandWord csr 0#2 0x11#8, a, b, c⟩ = .ok (.csrw csr.toNat a) := by
  rw [decode_of_accepts (op := .csrw) (by simp [Opcode.accepts, opcode_ofBits_iff, isCsrOpcode]), Opcode.instr,
    csrField_commandWord]

end Rows

/-- Settles O12, row by row. -/
theorem operandWordsReachTheirOperands : Obligations.OperandWordsReachTheirOperands := by
  unfold Obligations.OperandWordsReachTheirOperands
  intro a b c
  refine ⟨decode_ptaddr a b c, decode_mipselAny a b c, decode_mipselEven a b c, decode_mipselOdd a b c,
    decode_fxpack a b c, decode_fxunpz a b c, decode_fxisinv a b c, decode_ivpack a b c, decode_ivflags a b c,
    decode_ivid a b c, fun csr => ?_⟩
  obtain ⟨hr, hw⟩ := append_eq_commandWord csr
  rw [hr, hw]
  exact ⟨decode_csrr a b c csr, decode_csrw a b c csr⟩

/-! ## Decoding an encoding -/

/-- Settles O9: `encode` writes the word of the instruction's row, with the CSR address in its field. -/
theorem decodeOfEncodedInstructionIsTheInstruction : Obligations.DecodeOfEncodedInstructionIsTheInstruction := by
  unfold Obligations.DecodeOfEncodedInstructionIsTheInstruction
  intro i hwf
  have hcsr : ∀ csr : Nat, decide (csr < 256) = true → (BitVec.ofNat 8 csr).toNat = csr := fun csr h => by
    rw [BitVec.toNat_ofNat, Nat.mod_eq_of_lt (of_decide_eq_true h)]
  cases i with
  | ptaddr m x y => exact decode_ptaddr m x y
  | mipselAny f sb gb => exact decode_mipselAny f sb gb
  | mipselEven f sb gb => exact decode_mipselEven f sb gb
  | mipselOdd f sb gb => exact decode_mipselOdd f sb gb
  | fxpack xy z => exact decode_fxpack xy z _
  | fxunpz z => exact decode_fxunpz z _ _
  | fxisinv z => exact decode_fxisinv z _ _
  | ivpack flags vsmId => exact decode_ivpack flags vsmId _
  | ivflags p => exact decode_ivflags p _ _
  | ivid p => exact decode_ivid p _ _
  | csrr csr => rw [← hcsr csr hwf, encode, (withCsrField_toNat _).1, decode_csrr]
  | csrw csr v => rw [← hcsr csr hwf, encode, (withCsrField_toNat _).2, decode_csrw]

/-! ## Encoding what was decoded -/

theorem Opcode.instr_wellFormed (op : Opcode) (c : Command) : (op.instr c).wellFormed = true := by
  cases op with
  | mipsel => rcases instr_mipsel_cases c with ⟨-, h⟩ | ⟨-, h⟩ | ⟨-, -, h⟩ <;> rw [h] <;> rfl
  | csrr => exact decide_eq_true (csrField c.cmd).isLt
  | csrw => exact decide_eq_true (csrField c.cmd).isLt
  | _ => rfl

/-- What decodes is well formed (R81). -/
theorem wellFormed_of_decode {c : Command} {i : Instr} (h : decode c = .ok i) : i.wellFormed = true := by
  obtain ⟨op, -, rfl⟩ := decode_ok_iff_accepts.1 h
  exact op.instr_wellFormed c

/-- A word that passes the checks of R86, by its fields: those that the opcode does not use are 0. -/
theorem Opcode.eq_commandWord_of_accepts {op : Opcode} {w : Word} (h : op.accepts w = true) :
    w = commandWord (csrField w) (modeField w) (opField w) ∧ Opcode.ofBits (opField w) = some op ∧
      (op = .mipsel → modeField w ≠ 3#2) ∧ (op ≠ .mipsel → modeField w = 0#2) ∧
      (isCsrOpcode (opField w) = false → csrField w = 0#8) := by
  obtain ⟨hop, h1, h0, hrest⟩ := of_decide_eq_true h
  exact ⟨eq_commandWord h1 h0, hop, hrest⟩

/-- The encoder writes the command word that was decoded. -/
theorem encode_instr_cmd {op : Opcode} {c : Command} (h : op.accepts c.cmd = true) :
    (encode (op.instr c)).cmd = c.cmd := by
  obtain ⟨hw, hop, hmode3, hmode0, hcsr⟩ := Opcode.eq_commandWord_of_accepts h
  have hop := (opcode_ofBits_iff _ _).1 hop
  cases op with
  | mipsel =>
    rw [hop, hcsr (by rw [hop]; rfl)] at hw
    rcases instr_mipsel_cases c with ⟨hmode, hi⟩ | ⟨hmode, hi⟩ | ⟨hne0, hne1, hi⟩
    · rw [hi, hw, hmode]; rfl
    · rw [hi, hw, hmode]; rfl
    · have hmode : modeField c.cmd = 2#2 :=
        (by decide : ∀ m : BitVec 2, m ≠ 0#2 → m ≠ 1#2 → m ≠ 3#2 → m = 2#2) _ hne0 hne1 (hmode3 rfl)
      rw [hi, hw, hmode]; rfl
  | csrr => rw [hw, hop, hmode0 (by decide)]; exact (withCsrField_toNat _).1
  | csrw => rw [hw, hop, hmode0 (by decide)]; exact (withCsrField_toNat _).2
  | _ => rw [hw, hop, hmode0 (by decide), hcsr (by rw [hop]; rfl)]; rfl

/-- Settles O10: the command word comes back, and each row lists the operand words it keeps. -/
theorem encodeOfDecodedCommandKeepsItsWords : Obligations.EncodeOfDecodedCommandKeepsItsWords := by
  unfold Obligations.EncodeOfDecodedCommandKeepsItsWords
  intro c i hdec
  refine ⟨wellFormed_of_decode hdec, ?_⟩
  obtain ⟨op, hop, rfl⟩ := decode_ok_iff_accepts.1 hdec
  have hcmd := encode_instr_cmd hop
  cases op with
  | ptaddr => exact congrArg ({ c with cmd := · }) hcmd
  | mipsel =>
    rcases instr_mipsel_cases c with ⟨-, hi⟩ | ⟨-, hi⟩ | ⟨-, -, hi⟩ <;> rw [hi] at hcmd ⊢ <;>
      exact congrArg ({ c with cmd := · }) hcmd
  | fxpack => exact congrArg ({ c with cmd := ·, c := 0#32 }) hcmd
  | ivpack => exact congrArg ({ c with cmd := ·, c := 0#32 }) hcmd
  | csrr => exact congrArg ({ c with cmd := ·, a := 0#32, b := 0#32, c := 0#32 }) hcmd
  | fxunpz | fxisinv | ivflags | ivid | csrw => exact congrArg ({ c with cmd := ·, b := 0#32, c := 0#32 }) hcmd

/-! ## The opcode table -/

/-- Each instruction's own law of Laws/PerInstr.lean. -/
theorem encode_selects_row : ∀ i : Instr, Laws.TableRow.Statement i
  | .ptaddr m x y => Laws.TableRow.ptaddr m x y
  | .mipselAny f sb gb => Laws.TableRow.mipselAny f sb gb
  | .mipselEven f sb gb => Laws.TableRow.mipselEven f sb gb
  | .mipselOdd f sb gb => Laws.TableRow.mipselOdd f sb gb
  | .fxpack xy z => Laws.TableRow.fxpack xy z
  | .fxunpz z => Laws.TableRow.fxunpz z
  | .fxisinv z => Laws.TableRow.fxisinv z
  | .ivpack flags vsmId => Laws.TableRow.ivpack flags vsmId
  | .ivflags p => Laws.TableRow.ivflags p
  | .ivid p => Laws.TableRow.ivid p
  | .csrr csr => Laws.TableRow.csrr csr
  | .csrw csr v => Laws.TableRow.csrw csr v

/-- The word of a decoded command selects the row of its instruction. -/
theorem row_of_decode {c : Command} {i : Instr} (h : decode c = .ok i) :
    ∃ row ∈ opcodeTable, row.mnemonic = i.mnemonic ∧ row.selects c.cmd = true := by
  have hrow := encode_selects_row i (wellFormed_of_decode h)
  obtain ⟨op, hop, rfl⟩ := decode_ok_iff_accepts.1 h
  rwa [encode_instr_cmd hop] at hrow

/-- A field that the mask of the CSR rows covers is that of the masked word. -/
theorem extractLsb'_csrMask (w : Word) {start len : Nat}
    (hmask : (0xFF00FFFF#32).extractLsb' start len = BitVec.allOnes len) :
    w.extractLsb' start len = (w &&& 0xFF00FFFF#32).extractLsb' start len := by
  rw [BitVec.extractLsb'_and, hmask, BitVec.and_allOnes]

/-- Under the mask of the CSR rows only the CSR field is free. -/
theorem eq_commandWord_of_csrMask {w : Word} {op : BitVec 8} (h : w &&& 0xFF00FFFF#32 = commandWord 0#8 0#2 op) :
    w = commandWord (csrField w) 0#2 op := by
  have hop : opField w = op := by
    rw [opField, extractLsb'_csrMask w (by decide), h]; exact opField_commandWord ..
  have hmode : modeField w = 0#2 := by
    rw [modeField, extractLsb'_csrMask w (by decide), h]; exact modeField_commandWord ..
  have h0 : rsv0Field w = 0#6 := by
    rw [rsv0Field, extractLsb'_csrMask w (by decide), h]; exact rsv0Field_commandWord ..
  have h1 : rsv1Field w = 0#8 := by
    rw [rsv1Field, extractLsb'_csrMask w (by decide), h]; exact rsv1Field_commandWord ..
  conv_lhs => rw [eq_commandWord h1 h0, hmode, hop]

/-- A word that selects a row decodes to an instruction of that row. -/
theorem decode_of_row {row : OpcodeRow} (hrow : row ∈ opcodeTable) {w : Word} (h : row.selects w = true) (a b c : Word) :
    ∃ i, decode ⟨w, a, b, c⟩ = .ok i ∧ i.mnemonic = row.mnemonic := by
  have hmatch : w &&& row.mask = row.pattern := beq_iff_eq.1 h
  have hfull : row.mask = 0xFFFFFFFF#32 → w = row.pattern := fun hm => by
    rw [← hmatch, hm]; exact BitVec.and_allOnes.symm
  simp only [opcodeTable, List.mem_cons, List.not_mem_nil, or_false] at hrow
  rcases hrow with rfl | rfl | rfl | rfl | rfl | rfl | rfl | rfl | rfl | rfl | rfl | rfl
  · cases hfull rfl; exact ⟨_, decode_ptaddr a b c, rfl⟩
  · cases hfull rfl; exact ⟨_, decode_mipselAny a b c, rfl⟩
  · cases hfull rfl; exact ⟨_, decode_mipselEven a b c, rfl⟩
  · cases hfull rfl; exact ⟨_, decode_mipselOdd a b c, rfl⟩
  · cases hfull rfl; exact ⟨_, decode_fxpack a b c, rfl⟩
  · cases hfull rfl; exact ⟨_, decode_fxunpz a b c, rfl⟩
  · cases hfull rfl; exact ⟨_, decode_fxisinv a b c, rfl⟩
  · cases hfull rfl; exact ⟨_, decode_ivpack a b c, rfl⟩
  · cases hfull rfl; exact ⟨_, decode_ivflags a b c, rfl⟩
  · cases hfull rfl; exact ⟨_, decode_ivid a b c, rfl⟩
  · rw [eq_commandWord_of_csrMask (op := 0x10#8) hmatch]; exact ⟨_, decode_csrr a b c _, rfl⟩
  · rw [eq_commandWord_of_csrMask (op := 0x11#8) hmatch]; exact ⟨_, decode_csrw a b c _, rfl⟩

/-- Settles O11: the table of the statement is `opcodeTable`, and a row is selected by exactly what decodes to it. -/
theorem decoderAgreesWithTheOpcodeTable : Obligations.DecoderAgreesWithTheOpcodeTable := by
  unfold Obligations.DecoderAgreesWithTheOpcodeTable
  intro c name
  change _ ↔ ∃ entry ∈ opcodeTable.map fun row => (row.mnemonic, row.pattern, row.mask),
    entry.1 = name ∧ c.cmd &&& entry.2.2 = entry.2.1
  constructor
  · rintro ⟨i, hdec, rfl⟩
    obtain ⟨row, hrow, hname, hsel⟩ := row_of_decode hdec
    exact ⟨_, List.mem_map_of_mem hrow, hname, beq_iff_eq.1 hsel⟩
  · rintro ⟨entry, hentry, rfl, hsel⟩
    obtain ⟨row, hrow, rfl⟩ := List.mem_map.1 hentry
    exact decode_of_row hrow (beq_iff_eq.2 hsel) c.a c.b c.c

/-- Settles O13: each word is one of its row, but for the last two, which no row has. -/
theorem wordsOfTheSpecDecode : Obligations.WordsOfTheSpecDecode := by
  unfold Obligations.WordsOfTheSpecDecode
  exact ⟨decode_ptaddr .., decode_mipselOdd .., decode_fxpack .., decode_ivpack .., decode_csrr _ _ _ 6#8,
    decode_csrw _ _ _ 0x20#8, by decide, by decide⟩

/-! ## The illegal space (R87) -/

/-- The opcodes that R85 does not assign. -/
theorem opcode_ofBits_eq_none_iff : ∀ b : BitVec 8,
    Opcode.ofBits b = none ↔ b.toNat = 0 ∨ (9 ≤ b.toNat ∧ b.toNat ≤ 0xF) ∨ 0x12 ≤ b.toNat := by
  decide

theorem isCsrOpcode_eq_false_iff (b : BitVec 8) : isCsrOpcode b = false ↔ b ≠ 0x10#8 ∧ b ≠ 0x11#8 := by
  simp [isCsrOpcode]

/-- A check rejects, or what follows it does. -/
theorem exists_error_ite {p : Prop} [Decidable p] (e : DecodeError) (x : Except DecodeError Instr) :
    (∃ e', (if p then .error e else x) = .error e') ↔ p ∨ ∃ e', x = .error e' := by
  by_cases h : p <;> simp [h]

/-- The decoder rejects the words of the illegal space (R87) and no other. -/
theorem exists_decode_error_iff (c : Command) :
    (∃ e, decode c = .error e) ↔ Opcode.ofBits (opField c.cmd) = none ∨ rsv0Field c.cmd ≠ 0#6 ∨ rsv1Field c.cmd ≠ 0#8 ∨
      (opField c.cmd = 0x02#8 ∧ modeField c.cmd = 3#2) ∨ (opField c.cmd ≠ 0x02#8 ∧ modeField c.cmd ≠ 0#2) ∨
      (isCsrOpcode (opField c.cmd) = false ∧ csrField c.cmd ≠ 0#8) := by
  unfold decode
  cases h : Opcode.ofBits (opField c.cmd) with
  | none => simp
  | some op =>
    have hmipsel : op = .mipsel ↔ opField c.cmd = 0x02#8 := by
      rw [← opcode_ofBits_iff (opField c.cmd) .mipsel, h, Option.some_inj]
    simp only [exists_error_ite, ← hmipsel, ne_eq, reduceCtorEq, exists_false, or_false, false_or]
    tauto

end Sys2Proof

namespace Sys2Proof.Machine

/-- An illegal command that the halt does not refuse first: cause 1, and zeros (R86, R87). -/
theorem refuseCommand_illegal {cmd : Word} {s : State} (h : s.halted = false ∨ isCsrOpcode (opField cmd) = true) :
    refuseCommand cmd s = .next { s with
      cause := s.cause ||| 1#10
      halted := s.halted || s.failfast
      responses := s.responses ++ [⟨0#32, 0#32, 1#32⟩] } := by
  have hspared : (s.halted && !isCsrOpcode (opField cmd)) = false := by
    rcases h with h | h <;> simp [h]
  have hend := endOfCommand_one_cause s.failfast 0#32 0#32 (c := .illegal) rfl s
  rw [Cause.logBit_eq] at hend
  rw [refuseCommand_eq, hspared, if_neg Bool.false_ne_true]
  exact congrArg _ hend

/-- Settles O5: R87's list is what the checks of the decoder reject, and the step is the refusal. -/
theorem illegalCommandsAreExactlyTheIllegalSpace : Obligations.IllegalCommandsAreExactlyTheIllegalSpace := by
  unfold Obligations.IllegalCommandsAreExactlyTheIllegalSpace
  constructor
  · intro c
    rw [exists_decode_error_iff, opcode_ofBits_eq_none_iff, isCsrOpcode_eq_false_iff, and_assoc]
    rfl
  · intro s c rest e hin hdec hspared
    rw [step_illegal hin hdec, refuseCommand_illegal]
    exact hspared.imp id fun hop => by rcases hop with h | h <;> simp [isCsrOpcode, opField, h]

/-- Settles O4. -/
theorem stepRunsTheDecodedCommand : Obligations.StepRunsTheDecodedCommand :=
  fun _ _ _ _ hin hdec => ⟨wellFormed_of_decode hdec, step_command hin hdec⟩

end Sys2Proof.Machine
end

section
/-! SUPPORT. Every step keeps the invariant of the machine (60_exceptions.md R200 to R206, 30_encoding.md R84). -/

namespace Sys2Proof.Machine

/-- The status of a cause set is a code, at most that of each member (R202). -/
theorem statusOf_bounds_of_mem {c : Cause} {cs : List Cause} (h : c ∈ cs) :
    1 ≤ (statusOf cs).toNat ∧ (statusOf cs).toNat ≤ c.code := by
  cases cs with
  | nil => cases h
  | cons d ds =>
    rw [statusOf_toNat_cons]
    obtain ⟨hmem, hhead, htail⟩ := foldl_min_code ds d.code
    constructor
    · rcases hmem with hd | ⟨e, -, he⟩
      · have := d.code_bounds; omega
      · have := e.code_bounds; omega
    · rcases List.mem_cons.1 h with rfl | h
      · exact hhead
      · exact htail c h

/-- The response that the end-of-command steps give for an effect (R84, R202). -/
def Effect.response (e : Effect) : Response := ⟨e.r0, e.r1, statusOf e.causes⟩

/-- Only the refusal while halted has cause 11 (R200, R207). -/
theorem effectOf_of_halted_mem {i : Instr} {s : State} (h : .halted ∈ (effectOf i s).causes) :
    effectOf i s = haltedRefusal := by
  have hunit {e : Effect} (hrule : .halted ∉ e.causes) (hmem : .halted ∈ (unitEffect s e).causes) :
      unitEffect s e = haltedRefusal := by
    cases hh : s.halted with
    | false => rw [unitEffect_running hh] at hmem; exact absurd hmem hrule
    | true => exact unitEffect_halted hh e
  cases i with
  | csrr a => cases hr : csrAt a <;> simp [effectOf, csrrRule, hr] at h
  | csrw a v => cases hr : csrAt a <;> simp [effectOf, csrwRule, hr, apply_ite Effect.causes] at h
  | ptaddr m x y => exact hunit (by simp [ptaddrRule]) h
  | mipselAny | mipselEven | mipselOdd => exact hunit (by simp [mipselRule, apply_ite Effect.causes]) h
  | fxpack xy z => exact hunit (by simp [fxpackRule, apply_ite Effect.causes]) h
  | fxunpz z => exact hunit (by simp [fxunpzRule, apply_ite Effect.causes]) h
  | fxisinv z => exact hunit (by simp [fxisinvRule]) h
  | ivpack flags vsmId => exact hunit (by simp [ivpackRule]) h
  | ivflags p => exact hunit (by simp [ivflagsRule]) h
  | ivid p => exact hunit (by simp [ividRule]) h

/-- A response is well formed when its status is in range and neither of the two refusals. -/
theorem Response.wellFormed_of_not_refused {r : Response} (hle : r.st.toNat ≤ 11) (h1 : r.st ≠ 1#32)
    (h11 : r.st ≠ 11#32) : r.wellFormed = true := by
  simp [Response.wellFormed, hle, h1, h11]

/-- The response of an instruction is well formed: only a refused command has status 11, and none has status 1. -/
theorem effectOf_response_wellFormed (i : Instr) (s : State) : (effectOf i s).response.wellFormed = true := by
  have hstatus : ∀ cs ∈ ([[], [.halted], [.ptMip], [.ptCoord], [.ptMip, .ptCoord], [.mipFootprint], [.fxSlice],
      [.fxPacked], [.ivFlags], [.ivId], [.ivFlags, .ivId], [.csrAddr], [.csrRo]] : List (List Cause)),
      statusOf cs ≠ 1#32 ∧ (statusOf cs = 11#32 → .halted ∈ cs) := by decide
  obtain ⟨h1, h11⟩ := hstatus _ (effectOf_causes i s)
  by_cases hst : statusOf (effectOf i s).causes = 11#32
  · rw [effectOf_of_halted_mem (h11 hst)]
    rfl
  · exact Response.wellFormed_of_not_refused (statusOf_le _) h1 hst

/-- The end-of-command steps keep the invariant when the response is well formed and the command's own write has
added nothing to the log, to the halt or to the responses. -/
theorem State.Inv.endOfCommand {s t : State} {e : Effect} (hs : s.Inv) (he : e.response.wellFormed = true)
    (hresp : t.responses = s.responses) (hcause : ∀ k, t.cause.getLsbD k = true → s.cause.getLsbD k = true)
    (hhalt : t.halted = true → s.halted = true) (debug : Bool) : (endOfCommand debug e t).Inv where
  responses_wellFormed := by
    rw [endOfCommand_responses, hresp]
    intro r hr
    rcases List.mem_append.1 hr with hr | hr
    · exact hs.responses_wellFormed r hr
    · rw [List.mem_singleton.1 hr]; exact he
  logged_reported := by
    rw [endOfCommand_responses, endOfCommand_cause, hresp]
    intro k hk
    rcases (logCauses_getLsbD _ _ k).1 hk with hk | ⟨-, c, hc, hcode⟩
    · obtain ⟨r, hr, hst⟩ := hs.logged_reported k (hcause k hk)
      exact ⟨r, List.mem_append_left _ hr, hst⟩
    · exact ⟨e.response, List.mem_append_right _ List.mem_cons_self, hcode ▸ statusOf_bounds_of_mem hc⟩
  halted_reported := by
    rw [endOfCommand_responses, endOfCommand_halted, hresp]
    intro hh
    rcases Bool.or_eq_true_iff.1 hh with hh | hh
    · obtain ⟨r, hr, hcause⟩ := hs.halted_reported (hhalt hh)
      exact ⟨r, List.mem_append_left _ hr, hcause⟩
    · obtain ⟨c, hc, hlog⟩ := List.any_eq_true.1 (Bool.and_eq_true_iff.1 hh).2
      obtain ⟨hlo, hhi⟩ := statusOf_bounds_of_mem hc
      have := of_decide_eq_true hlog
      exact ⟨e.response, List.mem_append_right _ List.mem_cons_self, decide_eq_true ⟨hlo, hhi.trans this.2⟩⟩

/-- The invariant does not speak of what the host has yet to send. -/
theorem State.Inv.withInputs {s : State} (h : s.Inv) (rest : List HostInput) : ({ s with inputs := rest } : State).Inv :=
  ⟨h.responses_wellFormed, h.logged_reported, h.halted_reported⟩

/-- The write of a CSRW only clears bits of the log, and the halt (R46, R47). -/
theorem writtenState_only_clears (i : Instr) (s : State) :
    (∀ k, (writtenState i s).cause.getLsbD k = true → s.cause.getLsbD k = true) ∧
    ((writtenState i s).halted = true → s.halted = true) := by
  rcases writtenState_cases i s with h | ⟨v, -, h⟩ | ⟨v, -, h⟩ | ⟨v, -, h⟩ <;> rw [h]
  · exact ⟨fun _ => id, id⟩
  · exact ⟨fun _ => id, id⟩
  · refine ⟨fun k hk => ?_, id⟩
    rw [writeErrstat_cause_eq, BitVec.getLsbD_and] at hk
    exact (Bool.and_eq_true_iff.1 hk).1
  · exact ⟨fun _ => id, fun hh => (Bool.and_eq_true_iff.1 hh).1⟩

theorem State.Inv.exec {i : Instr} {s t : State} (hs : s.Inv) (h : exec i s = .next t) : t.Inv := by
  obtain ⟨hcause, hhalt⟩ := writtenState_only_clears i s
  rw [exec_next_iff.1 h]
  exact hs.endOfCommand (effectOf_response_wellFormed i s) (writtenState_responses i s) hcause hhalt _

theorem State.Inv.refuseCommand {cmd : Word} {s t : State} (hs : s.Inv) (h : refuseCommand cmd s = .next t) : t.Inv := by
  rw [refuseCommand_eq] at h
  injection h with h
  rw [← h]
  refine hs.endOfCommand ?_ rfl (fun _ => id) id _
  split <;> decide

/-- Reset keeps the responses and clears what they have to account for. -/
theorem State.Inv.resetUnit {s : State} (hs : s.Inv) : (resetUnit s).Inv where
  responses_wellFormed := hs.responses_wellFormed
  logged_reported := by simp
  halted_reported := by simp

/-- Settles O22, by what a step can do. -/
theorem stepKeepsTheStateSound : Obligations.StepKeepsTheStateSound := by
  unfold Obligations.StepKeepsTheStateSound
  intro s t hs hstep
  rcases step_cases hstep with ⟨-, rfl⟩ | ⟨inFlight, rest, -, rfl⟩ | ⟨c, rest, i, -, -, hexec⟩ |
    ⟨c, rest, e, -, -, hrefuse⟩
  · exact hs
  · exact (hs.withInputs rest).resetUnit
  · exact (hs.withInputs rest).exec hexec
  · exact (hs.withInputs rest).refuseCommand hrefuse

end Sys2Proof.Machine
end

section
/-! SUPPORT. The assembler (30_encoding.md R88 to R90): each kind of line as the command it gives, the operands, the
pseudo-instructions and the floats. -/

namespace Sys2Proof.Machine

/-! ## Lines -/

theorem assembleData_wellFormed {names : HostNames} {most : Nat} {os : List AsmOperand} {make : Word → Word → Word → Instr}
    {i : Instr} (hmake : ∀ a b c, (make a b c).wellFormed = true) (h : assembleData names most os make = .ok i) :
    i.wellFormed = true := by
  obtain ⟨-, ws, -, rfl⟩ := assembleData_eq_ok.1 h
  exact hmake ..

theorem assembleCsr_wellFormed {names : HostNames} {most : Nat} {os : List AsmOperand} {make : Nat → Word → Instr}
    {i : Instr} (hmake : ∀ a v, a < 256 → (make a v).wellFormed = true) (h : assembleCsr names most os make = .ok i) :
    i.wellFormed = true := by
  obtain ⟨o, a, rest, ws, -, -, ha, -, rfl⟩ := assembleCsr_eq_ok.1 h
  exact hmake _ _ (csrNumber_lt ha)

theorem assembleCore_wellFormed {names : HostNames} {l : AsmLine} {i : Instr} (h : assembleCore names l = .ok i) :
    i.wellFormed = true := by
  obtain ⟨n, mnemonic, os⟩ := l
  cases mnemonic with
  | csrr => exact assembleCsr_wellFormed (fun _ _ => decide_eq_true) h
  | csrw => exact assembleCsr_wellFormed (fun _ _ => decide_eq_true) h
  | mipsel | fxinval | ptlvl | errclr | resume | debug | release => cases h
  | _ => exact assembleData_wellFormed (fun _ _ _ => rfl) h

/-- What assembles has an encoding: a CSR operand fits its field (R89). -/
theorem assembleInstr_wellFormed {p : Params} {names : HostNames} {l : AsmLine} {i : Instr}
    (h : assembleInstr p names l = .ok i) : i.wellFormed = true := by
  unfold assembleInstr at h
  split at h
  · cases h
  · exact assembleCore_wellFormed h

/-- Of a list of at most `most` words, a word past `most` is the default. -/
theorem getD_of_length_le {ws : List Word} {most : Nat} (h : ws.length ≤ most) (k : Nat) :
    (if k < most then ws.getD k 0#32 else 0#32) = ws.getD k 0#32 := by
  split
  · rfl
  · exact (List.getD_eq_default _ _ (by omega)).symm

/-- A line of a function unit, as its command: the row's word and the operands in order, an absent word 0 (R89). -/
theorem assemble_data_iff {p : Params} {names : HostNames} {l : AsmLine} {most : Nat} {make : Word → Word → Word → Instr}
    {pattern : Word} (hline : assembleInstr p names l = assembleData names most l.operands make)
    (hmake : ∀ a b c, encode (make a b c) = ⟨pattern, a, if 1 < most then b else 0#32, if 2 < most then c else 0#32⟩)
    (c : Command) :
    assemble p names l = .ok c ↔ l.operands.length ≤ most ∧
      ∃ ws, List.Forall₂ (fun o w => dataWord names o = .ok w) l.operands ws ∧
        c = ⟨pattern, ws.getD 0 0#32, ws.getD 1 0#32, ws.getD 2 0#32⟩ := by
  have hcmd {ws : List Word} (hws : List.Forall₂ (fun o w => dataWord names o = .ok w) l.operands ws)
      (hlen : l.operands.length ≤ most) : encode (make (ws.getD 0 0#32) (ws.getD 1 0#32) (ws.getD 2 0#32)) =
        ⟨pattern, ws.getD 0 0#32, ws.getD 1 0#32, ws.getD 2 0#32⟩ := by
    rw [hws.length_eq] at hlen
    rw [hmake, getD_of_length_le hlen, getD_of_length_le hlen]
  simp only [assemble_eq_ok, hline, assembleData_eq_ok, dataWords_eq_ok]
  constructor
  · rintro ⟨i, ⟨hlen, ws, hws, rfl⟩, rfl⟩
    exact ⟨hlen, ws, hws, hcmd hws hlen⟩
  · rintro ⟨hlen, ws, hws, rfl⟩
    exact ⟨_, ⟨hlen, ws, hws, rfl⟩, hcmd hws hlen⟩

/-- A line of the control unit, as its command: the row's opcode with the CSR operand in `CMD[23:16]` (R89). -/
theorem assemble_csr_iff {p : Params} {names : HostNames} {l : AsmLine} {most op : Nat} {make : Nat → Word → Instr}
    (hline : assembleInstr p names l = assembleCsr names most l.operands make)
    (hmake : ∀ a v, a < 256 →
      encode (make a v) = ⟨BitVec.ofNat 32 (op + a * 2 ^ 16), if 0 < most then v else 0#32, 0#32, 0#32⟩)
    (c : Command) :
    assemble p names l = .ok c ↔ ∃ o a rest ws, l.operands = o :: rest ∧ rest.length ≤ most ∧ csrNumber o = .ok a ∧
      List.Forall₂ (fun o w => dataWord names o = .ok w) rest ws ∧
      c = ⟨BitVec.ofNat 32 (op + a * 2 ^ 16), ws.getD 0 0#32, 0#32, 0#32⟩ := by
  have hcmd {o : AsmOperand} {a : Nat} {rest : List AsmOperand} {ws : List Word} (ha : csrNumber o = .ok a)
      (hws : List.Forall₂ (fun o w => dataWord names o = .ok w) rest ws) (hlen : rest.length ≤ most) :
      encode (make a (ws.getD 0 0#32)) = ⟨BitVec.ofNat 32 (op + a * 2 ^ 16), ws.getD 0 0#32, 0#32, 0#32⟩ := by
    rw [hws.length_eq] at hlen
    rw [hmake _ _ (csrNumber_lt ha), getD_of_length_le hlen]
  simp only [assemble_eq_ok, hline, assembleCsr_eq_ok, dataWords_eq_ok]
  constructor
  · rintro ⟨i, ⟨o, a, rest, ws, hos, hlen, ha, hws, rfl⟩, rfl⟩
    exact ⟨o, a, rest, ws, hos, hlen, ha, hws, hcmd ha hws hlen⟩
  · rintro ⟨o, a, rest, ws, hos, hlen, ha, hws, rfl⟩
    exact ⟨_, ⟨o, a, rest, ws, hos, hlen, ha, hws, rfl⟩, hcmd ha hws hlen⟩

theorem encode_csrr {a : Nat} (h : a < 256) :
    encode (.csrr a) = ⟨BitVec.ofNat 32 (0x10 + a * 2 ^ 16), 0#32, 0#32, 0#32⟩ := by
  rw [encode, (withCsrField_eq_add h).1]

theorem encode_csrw {a : Nat} (h : a < 256) (v : Word) :
    encode (.csrw a v) = ⟨BitVec.ofNat 32 (0x11 + a * 2 ^ 16), v, 0#32, 0#32⟩ := by
  rw [encode, (withCsrField_eq_add h).2]

/-- A CSRR line has its CSR operand and no other. -/
theorem assemble_csrr_iff (p : Params) (names : HostNames) (n : Option String) (os : List AsmOperand) (c : Command) :
    assemble p names ⟨n, .csrr, os⟩ = .ok c ↔
      ∃ o a, os = [o] ∧ csrNumber o = .ok a ∧ c = ⟨BitVec.ofNat 32 (0x10 + a * 2 ^ 16), 0#32, 0#32, 0#32⟩ := by
  rw [assemble_csr_iff rfl (fun _ _ => encode_csrr)]
  constructor
  · rintro ⟨o, a, rest, ws, hos, hlen, ha, hws, rfl⟩
    obtain rfl := List.length_eq_zero_iff.1 (Nat.le_zero.1 hlen)
    cases hws
    exact ⟨o, a, hos, ha, rfl⟩
  · rintro ⟨o, a, hos, ha, rfl⟩
    exact ⟨o, a, [], [], hos, Nat.le_refl 0, ha, .nil, rfl⟩

/-! ## Operands -/

/-- A checked answer: the check holds, and it is the answer. -/
theorem ite_eq_ok_iff {α : Type} {p : Prop} [Decidable p] (x y : α) (e : AsmError) :
    (if p then Except.ok x else .error e) = .ok y ↔ p ∧ y = x := by
  by_cases h : p <;> simp [h, eq_comm]

theorem dataWord_int_iff (names : HostNames) (v : Int) (w : Word) :
    dataWord names (.int v) = .ok w ↔ (-2 ^ 31 ≤ v ∧ v ≤ 2 ^ 32 - 1) ∧ w = BitVec.ofInt 32 v :=
  ite_eq_ok_iff ..

theorem csrNumber_csrRaw_iff (v : Int) (a : Nat) :
    csrNumber (.csrRaw v) = .ok a ↔ (0 ≤ v ∧ v ≤ 255) ∧ a = v.toNat :=
  ite_eq_ok_iff ..

theorem csrNumber_csrName_iff (r : Csr) (a : Nat) : csrNumber (.csrName r) = .ok a ↔ csrAt a = some r := by
  rw [csrNumber, csrAt_eq_some, Except.ok.injEq, eq_comm]

/-- A name stands for its latest response (log entry 21). -/
theorem dataWord_result_cons (names : HostNames) (name : String) (r : Response) :
    dataWord ((name, r) :: names) (.result name .r0) = .ok r.r0 ∧
    dataWord ((name, r) :: names) (.result name .r1) = .ok r.r1 := by
  simp [dataWord, findName]

/-- Settles O58, by the kinds of lines and of operands. -/
theorem assembledLinesAreLegalCommands : Obligations.AssembledLinesAreLegalCommands := by
  unfold Obligations.AssembledLinesAreLegalCommands
  refine ⟨fun p names l c h => ?_, fun p names n os c => ⟨fun row hrow => ?_, ?_, ?_⟩, dataWord_int_iff,
    csrNumber_csrRaw_iff, csrNumber_csrName_iff, dataWord_result_cons⟩
  · obtain ⟨i, hi, rfl⟩ := assemble_eq_ok.1 h
    have hwf := assembleInstr_wellFormed hi
    exact ⟨i, hi, hwf, decodeOfEncodedInstructionIsTheInstruction i hwf⟩
  · simp only [List.mem_cons, List.not_mem_nil, or_false] at hrow
    rcases hrow with rfl | rfl | rfl | rfl | rfl | rfl | rfl | rfl | rfl | rfl <;>
      exact assemble_data_iff rfl (fun _ _ _ => rfl) c
  · exact assemble_csrr_iff p names n os c
  · exact assemble_csr_iff rfl (fun _ v h => encode_csrw h v) c

/-! ## Pseudo-instructions (R90) -/

/-- PTLVL names the register of its level by its address. -/
theorem assemble_ptlvl (p : Params) (names : HostNames) (n : Option String) {m : Int} (h0 : 0 ≤ m) (h7 : m ≤ 7) :
    assemble p names ⟨n, .ptlvl, [.int m]⟩ = .ok ⟨0x00100010#32 + BitVec.ofInt 32 (m * 2 ^ 16), 0#32, 0#32, 0#32⟩ := by
  interval_cases m <;> rfl

/-- Settles O59: each line has the expansion of R90, which assembles to the command. -/
theorem pseudoInstructionsExpand : Obligations.PseudoInstructionsExpand := by
  unfold Obligations.PseudoInstructionsExpand
  intro p names n
  exact ⟨fun _ => rfl, fun _ => rfl, fun _ h0 h7 => assemble_ptlvl p names n h0 h7, rfl, rfl, rfl, rfl⟩

/-! ## Floats (R88) -/

/-- A decimal float assembles when its magnitude is a whole number of units that binary32 represents. -/
theorem floatWord_decimal_iff (neg : Bool) (digits places : Nat) (w : Word) :
    floatWord (.decimal neg digits places) = .ok w ↔
      ∃ mag, f32 w = .finite neg mag ∧ mag * 10 ^ places = digits * oneUnits := by
  have hpos : 0 < 10 ^ places := by positivity
  rw [floatWord, ite_eq_ok_iff]
  constructor
  · rintro ⟨⟨hwhole, hrep⟩, rfl⟩
    exact ⟨_, f32_toWord_finite neg hrep, Nat.div_mul_cancel (Nat.dvd_of_mod_eq_zero hwhole)⟩
  · rintro ⟨mag, hw, hmag⟩
    have hrep := representable_of_f32 hw
    rw [← hmag, Nat.mul_div_cancel _ hpos, Nat.mul_mod_left]
    exact ⟨⟨rfl, hrep⟩, ((toWord_finite_eq_iff hrep w).2 hw).symm⟩

/-- Settles O60: the decimal floats by their magnitudes, the named ones by their patterns. -/
theorem floatOperandsAreExact : Obligations.FloatOperandsAreExact :=
  ⟨fun _ => floatWord_decimal_iff, fun _ => ⟨rfl, rfl, rfl, rfl⟩⟩

end Sys2Proof.Machine
end

section
/-! SUPPORT. The page table (40_page_table.md): the levels and their runs of slots, the index of a triple and its inverse,
and PTADDR for all operands. -/

namespace Sys2Proof.Machine

/-! ## The levels and their runs (R110, R111, R113) -/

theorem dim_eq_two_pow {m : Nat} (h : m < 8) : dim m = 2 ^ (7 - m) := by
  rw [dim, Nat.shiftRight_eq_div_pow]
  exact Nat.pow_div (Nat.le_of_lt_succ h) (by decide)

theorem dim_pos {m : Nat} (h : m < 8) : 0 < dim m := by
  rw [dim_eq_two_pow h]
  positivity

theorem levelOffset_eq_sum (m : Nat) : levelOffset m = ((List.range m).map count).sum := by
  induction m with
  | zero => rfl
  | succ m ih => simp [levelOffset, ih, List.range_succ]

theorem levelOffset_mono : Monotone levelOffset :=
  monotone_nat_of_le_succ fun _ => Nat.le_add_right ..

/-- Every slot below the start of a level lies in the run of an earlier one. -/
theorem exists_level_of_lt_levelOffset {i n : Nat} (h : i < levelOffset n) :
    ∃ m < n, levelOffset m ≤ i ∧ i < levelOffset (m + 1) := by
  induction n with
  | zero => exact absurd h (Nat.not_lt_zero i)
  | succ n ih =>
    rcases Nat.lt_or_ge i (levelOffset n) with hlt | hge
    · obtain ⟨m, hm, hrun⟩ := ih hlt
      exact ⟨m, Nat.lt_succ_of_lt hm, hrun⟩
    · exact ⟨n, Nat.lt_succ_self n, hge, h⟩

/-- Settles O27: the forms of a level by its number, the offset as a sum by induction. -/
theorem levelOffsetsHaveTheirClosedForms : Obligations.LevelOffsetsHaveTheirClosedForms := by
  unfold Obligations.LevelOffsetsHaveTheirClosedForms
  have hlevels : ∀ m < 8, dim m = 128 / 2 ^ m ∧ count m = 4 ^ (7 - m) := by decide
  have hoffsets : ∀ m ≤ 8, levelOffset m = (4 ^ 8 - 4 ^ (8 - m)) / 3 ∧
      levelOffset m = (0x5555#16 &&& ~~~(0xFFFF#16 >>> (2 * m))).toNat := by decide
  refine ⟨fun m hm => ?_, fun m hm => ⟨levelOffset_eq_sum m, hoffsets m hm⟩, rfl, rfl, rfl⟩
  obtain ⟨hdim, hcount⟩ := hlevels m hm
  exact ⟨hdim, dim_eq_two_pow hm, rfl, hcount⟩

/-! ## The index and its inverse (R112, R116, R117) -/

theorem validTriple_iff {m x y : Nat} : validTriple m x y = true ↔ m < 8 ∧ x < dim m ∧ y < dim m :=
  decide_eq_true_iff

/-- The index of a valid triple lies in the run of its level. -/
theorem pageIndex_mem_run {m x y : Nat} (h : validTriple m x y = true) :
    levelOffset m ≤ pageIndex m x y ∧ pageIndex m x y < levelOffset (m + 1) := by
  obtain ⟨-, hx, hy⟩ := validTriple_iff.1 h
  have hrow : (y + 1) * dim m ≤ dim m * dim m := Nat.mul_le_mul_right _ hy
  rw [Nat.succ_mul] at hrow
  rw [levelOffset, count, Nat.pow_two, pageIndex]
  omega

theorem pageIndex_lt_capacity {m x y : Nat} (h : validTriple m x y = true) : pageIndex m x y < 21845 :=
  calc pageIndex m x y < levelOffset (m + 1) := (pageIndex_mem_run h).2
    _ ≤ levelOffset 8 := levelOffset_mono (validTriple_iff.1 h).1
    _ = 21845 := rfl

/-- The level of a slot is the one whose run holds it: the levels that end at or below the slot are those before it. -/
theorem slotLevel_eq_of_mem_run {i m : Nat} (hm : m < 8) (hlo : levelOffset m ≤ i) (hhi : i < levelOffset (m + 1)) :
    slotLevel i = m := by
  have hends (k : Nat) : levelOffset (k + 1) ≤ i ↔ k < m := by
    constructor
    · intro hk
      by_contra hge
      have := levelOffset_mono (show m + 1 ≤ k + 1 by omega)
      omega
    · exact fun hk => (levelOffset_mono hk).trans hlo
  have hcount : ∀ m < 8, (List.range maxMipLevels).countP (fun k => decide (k < m)) = m := by decide
  simp only [slotLevel, hends, hcount m hm]

/-- The inverse takes the index of a valid triple back to it. -/
theorem slotTriple_pageIndex {m x y : Nat} (h : validTriple m x y = true) : slotTriple (pageIndex m x y) = (m, x, y) := by
  obtain ⟨hm, hx, -⟩ := validTriple_iff.1 h
  obtain ⟨hlo, hhi⟩ := pageIndex_mem_run h
  have hwithin : pageIndex m x y - levelOffset m = x + dim m * y := by rw [pageIndex, Nat.mul_comm]; omega
  have hmod : (x + dim m * y) % dim m = x := by rw [Nat.add_mul_mod_self_left, Nat.mod_eq_of_lt hx]
  have hdiv : (x + dim m * y) / dim m = y := by
    rw [Nat.add_mul_div_left _ _ (dim_pos hm), Nat.div_eq_of_lt hx, Nat.zero_add]
  simp only [slotTriple, slotLevel_eq_of_mem_run hm hlo hhi, hwithin, hmod, hdiv]

/-- Every slot is the index of a valid triple. -/
theorem exists_pageIndex_eq {i : Nat} (h : i < 21845) : ∃ m x y, validTriple m x y = true ∧ pageIndex m x y = i := by
  obtain ⟨m, hm, hlo, hhi⟩ := exists_level_of_lt_levelOffset (n := 8) h
  have hwithin : i - levelOffset m < dim m * dim m := by
    rw [levelOffset, count, Nat.pow_two] at hhi
    omega
  refine ⟨m, (i - levelOffset m) % dim m, (i - levelOffset m) / dim m,
    validTriple_iff.2 ⟨hm, Nat.mod_lt _ (dim_pos hm), Nat.div_lt_of_lt_mul hwithin⟩, ?_⟩
  rw [pageIndex, Nat.add_assoc, Nat.div_add_mod', Nat.add_sub_cancel' hlo]

/-- Settles O32: a slot is the index of a valid triple, which the inverse gives back. -/
theorem slotTripleIsTheInverseOfTheIndex : Obligations.SlotTripleIsTheInverseOfTheIndex := by
  unfold Obligations.SlotTripleIsTheInverseOfTheIndex
  refine ⟨fun i hi m x y hslot => ?_, fun _ _ _ => slotTriple_pageIndex⟩
  obtain ⟨m', x', y', hvalid, rfl⟩ := exists_pageIndex_eq hi
  have hback := slotTriple_pageIndex hvalid
  obtain ⟨rfl, rfl, rfl⟩ : m' = m ∧ x' = x ∧ y' = y := by simpa using hback.symm.trans hslot
  obtain ⟨hlo, hhi⟩ := pageIndex_mem_run hvalid
  have hlevel := slotLevel_eq_of_mem_run (validTriple_iff.1 hvalid).1 hlo hhi
  simp only [slotTriple, hlevel, Prod.mk.injEq, true_and] at hslot
  exact ⟨hvalid, rfl, ⟨hlo, hhi⟩, fun k hk hklo hkhi => (slotLevel_eq_of_mem_run hk hklo hkhi).symm.trans hlevel,
    hslot.1.symm, hslot.2.symm⟩

/-! ## PTADDR (R115) -/

/-- The end of a command that checks two logged causes in the order of their codes (R202, R203, R206). -/
theorem endOfCommand_two_checks (debug : Bool) (r0 r1 : Word) {c d : Cause} (hc : c.isLogged = true)
    (hd : d.isLogged = true) (hcd : c.code ≤ d.code) (p q : Prop) [Decidable p] [Decidable q] (s : State) :
    endOfCommand debug { r0 := r0, r1 := r1, causes := (if p then [c] else []) ++ (if q then [d] else []) } s =
      { s with
        cause := (s.cause ||| (if p then c.logBit else 0#10)) ||| (if q then d.logBit else 0#10)
        halted := s.halted || (debug && (decide p || decide q))
        responses := s.responses ++ [⟨r0, r1,
          if p then BitVec.ofNat 32 c.code else if q then BitVec.ofNat 32 d.code else 0#32⟩] } := by
  by_cases hp : p <;> by_cases hq : q <;>
    simp [hp, hq, endOfCommand, haltsWhenDebug, statusOf, hc, hd, Nat.min_eq_left hcd]

/-- The level PTADDR uses: the operand, at most 7. -/
def clampedLevel (m : Word) : Nat := min m.toNat 7

/-- The coordinate PTADDR uses: the operand, at most the last one of the level it uses. -/
def clampedCoord (m v : Word) : Nat := min v.toNat (dim (clampedLevel m) - 1)

/-- The slot PTADDR returns. -/
def clampedIndex (m x y : Word) : Nat := pageIndex (clampedLevel m) (clampedCoord m x) (clampedCoord m y)

/-- What is clamped is valid, whatever the operands are. -/
theorem validTriple_clamped (m x y : Word) :
    validTriple (clampedLevel m) (clampedCoord m x) (clampedCoord m y) = true := by
  have hlevel : clampedLevel m < 8 := Nat.lt_succ_of_le (Nat.min_le_right ..)
  have hcoord (v : Word) : clampedCoord m v < dim (clampedLevel m) :=
    (Nat.min_le_right ..).trans_lt (Nat.sub_lt (dim_pos hlevel) Nat.one_pos)
  exact validTriple_iff.2 ⟨hlevel, hcoord x, hcoord y⟩

theorem clampedIndex_lt_capacity (m x y : Word) : clampedIndex m x y < 21845 :=
  pageIndex_lt_capacity (validTriple_clamped m x y)

/-- PTADDR while running, for all operands: the slot of what is clamped, and a cause for each violation. -/
theorem exec_ptaddr_running {s : State} (h : s.halted = false) (m x y : Word) :
    exec (.ptaddr m x y) s = .next { s with
      cause := (s.cause ||| (if 8 ≤ m.toNat then 0b10#10 else 0#10)) |||
        (if dim (clampedLevel m) ≤ x.toNat ∨ dim (clampedLevel m) ≤ y.toNat then 0b100#10 else 0#10)
      halted := s.failfast &&
        (decide (8 ≤ m.toNat) || decide (dim (clampedLevel m) ≤ x.toNat ∨ dim (clampedLevel m) ≤ y.toNat))
      responses := s.responses ++ [⟨BitVec.ofNat 32 (clampedIndex m x y), 0#32,
        if 8 ≤ m.toNat then 2#32
        else if dim (clampedLevel m) ≤ x.toNat ∨ dim (clampedLevel m) ≤ y.toNat then 3#32 else 0#32⟩] } := by
  have hend := endOfCommand_two_checks s.failfast (BitVec.ofNat 32 (clampedIndex m x y)) 0#32 (c := .ptMip)
    (d := .ptCoord) rfl rfl (by decide) (8 ≤ m.toNat)
    (dim (clampedLevel m) ≤ x.toNat ∨ dim (clampedLevel m) ≤ y.toNat) s
  rw [h, Bool.false_or, Cause.logBit_eq, Cause.logBit_eq] at hend
  have heffect : effectOf (.ptaddr m x y) s = ptaddrRule m x y := unitEffect_running h _
  rw [exec_eq, heffect]
  exact congrArg _ hend

/-- Settles O29: the general next state, with the offset and the sizes written out. -/
theorem ptaddrSaturatesAndReports : Obligations.PtaddrSaturatesAndReports := by
  unfold Obligations.PtaddrSaturatesAndReports
  intro s m x y hrun
  simp only [decide_eq_true_eq]
  exact exec_ptaddr_running hrun m x y

/-- Settles O30: the slot returned is that of a valid triple. -/
theorem ptaddrNeverLeavesThePageTable : Obligations.PtaddrNeverLeavesThePageTable := by
  unfold Obligations.PtaddrNeverLeavesThePageTable
  intro s m x y hrun
  refine ⟨_, _, exec_ptaddr_running hrun m x y, rfl, ?_, rfl⟩
  have := clampedIndex_lt_capacity m x y
  rw [BitVec.toNat_ofNat, Nat.mod_eq_of_lt (by omega)]
  omega

/-- PTADDR of a valid triple clamps nothing and raises nothing: it returns the triple's slot. -/
theorem exec_ptaddr_valid {s : State} (h : s.halted = false) {m x y : Word}
    (hvalid : validTriple m.toNat x.toNat y.toNat = true) :
    exec (.ptaddr m x y) s = .next { s with
      responses := s.responses ++ [⟨BitVec.ofNat 32 (pageIndex m.toNat x.toNat y.toNat), 0#32, 0#32⟩] } := by
  obtain ⟨hm, hx, hy⟩ := validTriple_iff.1 hvalid
  have hlevel : clampedLevel m = m.toNat := Nat.min_eq_left (by omega)
  have hcoord {v : Word} (hv : v.toNat < dim m.toNat) : clampedCoord m v = v.toNat := by
    rw [clampedCoord, hlevel]
    exact Nat.min_eq_left (by omega)
  rw [exec_ptaddr_running h, clampedIndex, hlevel, hcoord hx, hcoord hy]
  simp [Nat.not_le.2 hm, Nat.not_le.2 hx, Nat.not_le.2 hy, ← h]

/-- Settles O28: the offset is the sum of the earlier levels' counts, and a row is `2^(7 - m)` slots. -/
theorem ptaddrOfAValidTripleIsTheRowMajorIndex : Obligations.PtaddrOfAValidTripleIsTheRowMajorIndex := by
  unfold Obligations.PtaddrOfAValidTripleIsTheRowMajorIndex
  intro s m x y hrun hm hx hy
  have hvalid : validTriple m.toNat x.toNat y.toNat = true := validTriple_iff.2 ⟨hm, hx, hy⟩
  have hindex : pageIndex m.toNat x.toNat y.toNat =
      ((List.range m.toNat).map count).sum + y.toNat * dim m.toNat + x.toNat := by
    rw [pageIndex, levelOffset_eq_sum]
  have hexec := exec_ptaddr_valid hrun hvalid
  have hcapacity := pageIndex_lt_capacity hvalid
  have hrow : y.toNat * dim m.toNat = y.toNat <<< (7 - m.toNat) := by rw [dim_eq_two_pow hm, Nat.shiftLeft_eq]
  rw [hindex] at hexec hcapacity
  exact ⟨hexec, congrArg (_ + · + _) hrow, Nat.le_of_lt_succ hcapacity⟩

/-- The answers to two valid triples are equal only for one slot. -/
theorem pageIndex_eq_of_exec_ptaddr_eq {s : State} (h : s.halted = false) {m x y m' x' y' : Word}
    (hvalid : validTriple m.toNat x.toNat y.toNat = true) (hvalid' : validTriple m'.toNat x'.toNat y'.toNat = true)
    (heq : exec (.ptaddr m x y) s = exec (.ptaddr m' x' y') s) :
    pageIndex m.toNat x.toNat y.toNat = pageIndex m'.toNat x'.toNat y'.toNat := by
  rw [exec_ptaddr_valid h hvalid, exec_ptaddr_valid h hvalid'] at heq
  have hword : BitVec.ofNat 32 (pageIndex m.toNat x.toNat y.toNat) =
      BitVec.ofNat 32 (pageIndex m'.toNat x'.toNat y'.toNat) := by simpa using heq
  have hlt := pageIndex_lt_capacity hvalid
  have hlt' := pageIndex_lt_capacity hvalid'
  have hmod := congrArg BitVec.toNat hword
  rwa [BitVec.toNat_ofNat, BitVec.toNat_ofNat, Nat.mod_eq_of_lt (by omega), Nat.mod_eq_of_lt (by omega)] at hmod

/-- The parts of a valid triple fit in words. -/
theorem exists_words_of_validTriple {m x y : Nat} (h : validTriple m x y = true) :
    ∃ wm wx wy : Word, wm.toNat = m ∧ wx.toNat = x ∧ wy.toNat = y := by
  obtain ⟨hm, hx, hy⟩ := validTriple_iff.1 h
  have hdim : dim m ≤ 128 := Nat.shiftRight_le ..
  have toNat_ofNat {v : Nat} (hv : v < 128) : (BitVec.ofNat 32 v).toNat = v := by
    rw [BitVec.toNat_ofNat, Nat.mod_eq_of_lt (by omega)]
  exact ⟨_, _, _, toNat_ofNat (by omega), toNat_ofNat (by omega), toNat_ofNat (by omega)⟩

/-- Settles O31: a slot has a triple, a triple has a slot, and the inverse takes equal slots to equal triples. -/
theorem ptaddrIsABijectionOntoTheSlots : Obligations.PtaddrIsABijectionOntoTheSlots := by
  unfold Obligations.PtaddrIsABijectionOntoTheSlots
  intro s hrun
  refine ⟨fun i hi => ?_, fun m x y hvalid => ?_, fun m x y m' x' y' hvalid hvalid' heq => ?_⟩
  · obtain ⟨m, x, y, hvalid, rfl⟩ := exists_pageIndex_eq hi
    obtain ⟨wm, wx, wy, rfl, rfl, rfl⟩ := exists_words_of_validTriple hvalid
    exact ⟨wm, wx, wy, hvalid, exec_ptaddr_valid hrun hvalid⟩
  · exact ⟨_, pageIndex_lt_capacity hvalid, exec_ptaddr_valid hrun hvalid⟩
  · have hslots := pageIndex_eq_of_exec_ptaddr_eq hrun hvalid hvalid' heq
    have htriples := slotTriple_pageIndex hvalid
    rw [hslots, slotTriple_pageIndex hvalid'] at htriples
    simp only [Prod.mk.injEq, BitVec.toNat_inj] at htriples
    obtain ⟨hm, hx, hy⟩ := htriples
    exact ⟨hm.symm, hx.symm, hy.symm⟩

end Sys2Proof.Machine
end

section
/-! SUPPORT. The mip-level selector (41_mip_select.md): the clamp by its comparisons with integers, the selectors for all
operands, the order of the levels, and the levels of powers of two. -/

namespace Sys2Proof.Machine

/-! ## Footprints and the clamp (R132, R134) -/

/-- Settles O36: the three checks of `validFootprint`, on the fields. -/
theorem validFootprintsArePositive : Obligations.ValidFootprintsArePositive := by
  unfold Obligations.ValidFootprintsArePositive
  refine ⟨fun a => ?_, by decide, by decide⟩
  have hfraction : fractionField a ≠ 0 ↔ a.extractLsb' 0 23 ≠ 0#23 := by
    rw [fractionField, ne_eq, ne_eq, ← BitVec.toNat_inj]
    rfl
  simp only [validFootprint, hfraction, exponentField, BitVec.msb_eq_getLsbD_last, Bool.and_eq_true, Bool.not_eq_true',
    decide_eq_true_eq, decide_eq_false_iff_not, and_assoc]

/-- An integer and a finite value are compared by their units. -/
theorem ofInteger_le_finite_iff (k : Int) (neg : Bool) (mag : Nat) :
    (F32.ofInteger k).le (.finite neg mag) = true ↔ k * oneUnits ≤ (F32.finite neg mag).units := by
  rw [← ofInteger_units]
  exact decide_eq_true_iff

/-- The clamped level by comparison: it reaches a level from 1 to 7 exactly when the value does (R134). -/
theorem le_clampLevel_iff (raw : F32) {k : Nat} (h1 : 1 ≤ k) (h7 : k ≤ 7) :
    k ≤ clampLevel raw ↔ (F32.ofInteger k).le raw = true := by
  have hone : 0 < oneUnits := Nat.two_pow_pos 149
  have hzero : ¬k ≤ 0 := by omega
  cases raw with
  | nan => exact iff_of_false hzero Bool.false_ne_true
  | inf neg =>
    cases neg with
    | true => exact iff_of_false hzero Bool.false_ne_true
    | false => exact iff_of_true h7 rfl
  | finite neg mag =>
    rw [ofInteger_le_finite_iff]
    cases neg with
    | true =>
      have hpos : 0 < (k : Int) * oneUnits := by positivity
      refine iff_of_false hzero ?_
      rw [F32.units]
      omega
    | false =>
      rw [clampLevel, F32.units]
      norm_cast
      split
      · have : k * oneUnits ≤ 7 * oneUnits := Nat.mul_le_mul_right _ h7
        omega
      · exact Nat.le_div_iff_mul_le hone

/-- A value at most 0 has the clamped level 0. -/
theorem clampLevel_of_le_zero {raw : F32} (h : raw.le (F32.ofInteger 0) = true) : clampLevel raw = 0 := by
  by_contra hne
  have hle := F32.le_trans ((le_clampLevel_iff raw le_rfl (by decide)).1 (Nat.pos_of_ne_zero hne)) h
  exact absurd ((ofInteger_le _ _).1 hle) (by decide)

/-- The clamped level of a positive value is at most the value. -/
theorem ofInteger_clampLevel_le {raw : F32} (hnan : raw ≠ .nan) (h : raw.le (F32.ofInteger 0) = false) :
    (F32.ofInteger (clampLevel raw)).le raw = true := by
  rcases Nat.eq_zero_or_pos (clampLevel raw) with hzero | hpos
  · rw [hzero]
    exact F32.le_total_of_ne_nan hnan (by decide) h
  · exact (le_clampLevel_iff raw hpos (clampLevel_le raw)).1 le_rfl

/-- Settles O37: the comparisons of the value with 0, with 7 and with the level and its successor. -/
theorem clampedLevelIsTheSaturatedFloor : Obligations.ClampedLevelIsTheSaturatedFloor := by
  unfold Obligations.ClampedLevelIsTheSaturatedFloor
  intro raw
  have hseven := le_clampLevel_iff raw (k := 7) (by decide) le_rfl
  refine ⟨?_, clampLevel_of_le_zero, fun h => le_antisymm (clampLevel_le raw) (hseven.2 h), fun hnan hpos hlt => ?_⟩
  · rintro rfl
    rfl
  · have hle : clampLevel raw ≤ 6 := by
      by_contra hgt
      exact absurd (hseven.1 (by omega)) (ne_true_of_eq_false hlt)
    refine ⟨hle, ofInteger_clampLevel_le hnan hpos, Bool.eq_false_iff.2 fun hnext => ?_⟩
    have := (le_clampLevel_iff raw (k := clampLevel raw + 1) (by omega) (by omega)).2 hnext
    omega

/-! ## The selectors for all operands (R133, R135, R139, R140) -/

/-- The selector of a mode. -/
def mipselInstr : MipMode → Word → Word → Word → Instr
  | .any => .mipselAny
  | .evenOnly => .mipselEven
  | .oddOnly => .mipselOdd

/-- The level a selector has before the parity override: 0 for an invalid footprint (R139, R140). -/
def mipLevel (a b c : Word) : Nat := if validFootprint a then clampLevel (rawLevel params a b c) else 0

theorem mipLevel_le (a b c : Word) : mipLevel a b c ≤ 7 := by
  unfold mipLevel
  split
  · exact clampLevel_le _
  · exact Nat.zero_le _

/-- A selector while running, for all operands: the level with its parity override, and cause 4 for an invalid
footprint. -/
theorem exec_mipsel_running (mode : MipMode) {s : State} (h : s.halted = false) (a b c : Word) :
    exec (mipselInstr mode a b c) s = .next { s with
      cause := s.cause ||| (if validFootprint a then 0#10 else 0b1000#10)
      halted := s.failfast && !validFootprint a
      responses := s.responses ++ [⟨parity mode (zext (mipLevel a b c)), 0#32,
        if validFootprint a then 0#32 else 4#32⟩] } := by
  have hexec : exec (mipselInstr mode a b c) s = .next (endOfCommand s.failfast (mipselRule params mode a b c) s) := by
    rw [← unitEffect_running h (mipselRule params mode a b c)]
    cases mode <;> exact exec_eq _ s
  rw [hexec]
  cases hvalid : validFootprint a with
  | true => simp [mipselRule, mipLevel, hvalid, endOfCommand_clean, ← h]
  | false =>
    have hend := endOfCommand_one_cause s.failfast (parity mode 0#32) 0#32 (c := .mipFootprint) rfl s
    simp [mipselRule, mipLevel, hvalid, hend, Cause.logBit_eq, Cause.code, zext, h]

/-- Settles O35: the next state of each of the three modes. -/
theorem mipselSelectsTheBiasedLevel : Obligations.MipselSelectsTheBiasedLevel := by
  unfold Obligations.MipselSelectsTheBiasedLevel
  intro s a b c hrun ok raw u after
  have hlevel : zext (mipLevel a b c) = u := apply_ite (BitVec.ofNat 32) ..
  rw [← hlevel]
  exact ⟨exec_mipsel_running .any hrun a b c, exec_mipsel_running .evenOnly hrun a b c,
    exec_mipsel_running .oddOnly hrun a b c⟩

/-- The parity override on the eight levels (R135). -/
theorem parity_toNat : ∀ u < 8, (parity .any (zext u)).toNat = u ∧ (parity .evenOnly (zext u)).toNat = u / 2 * 2 ∧
    (parity .oddOnly (zext u)).toNat = u / 2 * 2 + 1 := by decide

/-- Settles O38: the override keeps a level in its pair of an even and an odd level. -/
theorem mipselStaysInRangeAndKeepsParity : Obligations.MipselStaysInRangeAndKeepsParity := by
  unfold Obligations.MipselStaysInRangeAndKeepsParity
  intro s a b c hrun
  have hlevel : mipLevel a b c < 8 := Nat.lt_succ_of_le (mipLevel_le a b c)
  obtain ⟨hany, heven, hodd⟩ := parity_toNat _ hlevel
  refine ⟨⟨_, _, exec_mipsel_running .any hrun a b c, rfl, ?_⟩,
    ⟨_, _, exec_mipsel_running .evenOnly hrun a b c, rfl, ?_⟩, ⟨_, _, exec_mipsel_running .oddOnly hrun a b c, rfl, ?_⟩⟩
  · rw [hany]
    exact hlevel
  · rw [heven]
    omega
  · rw [hodd]
    omega

/-! ## The order of the levels (R142) -/

theorem params_log2_legal : Log2Legal params.log2 := buildParametersAreLegal.log2_legal

theorem F32.eq_posInf_of_le {y : F32} (h : (F32.inf false).le y = true) : y = .inf false := by
  cases y with
  | nan => cases h
  | inf t =>
    cases t with
    | true => cases h
    | false => rfl
  | finite m b => cases h

theorem F32.eq_posInf_or_finite_of_le {n : Bool} {a : Nat} {y : F32} (h : (F32.finite n a).le y = true) :
    y = .inf false ∨ ∃ m b, y = .finite m b := by
  cases y with
  | nan => cases h
  | inf t =>
    cases t with
    | true => cases h
    | false => exact .inl rfl
  | finite m b => exact .inr ⟨m, b, rfl⟩

theorem F32.le_posInf_of_ne_nan {x : F32} (h : x ≠ .nan) : x.le (.inf false) = true := by
  cases x with
  | nan => exact absurd rfl h
  | inf s => cases s <;> rfl
  | finite n a => rfl

theorem addFinite_ne_nan (n : Bool) (a : Nat) (m : Bool) (b : Nat) : addFinite n a m b ≠ .nan := by
  simp only [addFinite, roundFinite]
  split_ifs <;> nofun

/-- Addition keeps the order, unless the smaller sum is NaN or -inf. -/
theorem fadd_le_or_nan_or_negInf {x y : F32} (c : F32) (h : x.le y = true) :
    (fadd x c).le (fadd y c) = true ∨ fadd x c = .nan ∨ fadd x c = .inf true := by
  cases x with
  | nan => exact .inr (.inl rfl)
  | inf s =>
    cases s with
    | true =>
      cases c with
      | nan => exact .inr (.inl rfl)
      | inf t => cases t <;> exact .inr (by decide)
      | finite m b => exact .inr (.inr rfl)
    | false =>
      obtain rfl := F32.eq_posInf_of_le h
      by_cases hnan : fadd (.inf false) c = .nan
      · exact .inr (.inl hnan)
      · exact .inl (F32.le_refl_of_ne_nan _ hnan)
  | finite n a =>
    cases c with
    | nan => exact .inr (.inl rfl)
    | inf t =>
      cases t with
      | true => exact .inr (.inr rfl)
      | false => rcases F32.eq_posInf_or_finite_of_le h with rfl | ⟨m, b, rfl⟩ <;> exact .inl rfl
    | finite m b =>
      rcases F32.eq_posInf_or_finite_of_le h with rfl | ⟨n', a', rfl⟩
      · exact .inl (F32.le_posInf_of_ne_nan (addFinite_ne_nan n a m b))
      · exact .inl (addFinite_le m b h)

/-- A sum with NaN or -inf has the clamped level 0. -/
theorem clampLevel_fadd_of_nan_or_negInf {x : F32} (c : F32) (h : x = .nan ∨ x = .inf true) :
    clampLevel (fadd x c) = 0 := by
  rcases h with rfl | rfl
  · rfl
  · cases c with
    | nan => rfl
    | inf t => cases t <;> rfl
    | finite m b => rfl

/-- The level before the override never falls when the footprint rises. -/
theorem mipLevel_mono {a a' : Word} (b c : Word)
    (h : validFootprint a = false ∨
      (validFootprint a = true ∧ validFootprint a' = true ∧ (f32 a).le (f32 a') = true)) :
    mipLevel a b c ≤ mipLevel a' b c := by
  rcases h with hinvalid | ⟨hvalid, hvalid', hle⟩
  · simp [mipLevel, hinvalid]
  · rw [mipLevel, if_pos hvalid, mipLevel, if_pos hvalid']
    rcases fadd_le_or_nan_or_negInf (f32 b) (params_log2_legal.monotone a a' hvalid hvalid' hle) with hsum | hsum
    · exact clampLevel_fadd_mono (f32 c) hsum
    · rw [rawLevel, clampLevel_fadd_of_nan_or_negInf (f32 c) hsum]
      exact Nat.zero_le _

/-- The override keeps the order of the levels. -/
theorem parity_zext_mono (mode : MipMode) {u v : Nat} (huv : u ≤ v) (hv : v < 8) :
    (parity mode (zext u)).toNat ≤ (parity mode (zext v)).toNat := by
  obtain ⟨hany, heven, hodd⟩ := parity_toNat u (huv.trans_lt hv)
  obtain ⟨hany', heven', hodd'⟩ := parity_toNat v hv
  cases mode <;> omega

theorem eq_mipselInstr_of_mem {make : Word → Word → Word → Instr}
    (h : make ∈ [Instr.mipselAny, Instr.mipselEven, Instr.mipselOdd]) : ∃ mode, make = mipselInstr mode := by
  simp only [List.mem_cons, List.not_mem_nil, or_false] at h
  rcases h with rfl | rfl | rfl
  · exact ⟨.any, rfl⟩
  · exact ⟨.evenOnly, rfl⟩
  · exact ⟨.oddOnly, rfl⟩

/-- Settles O39: `LOG2`, the additions with the clamp, and the override each keep the order. -/
theorem mipselIsMonotoneInTheFootprint : Obligations.MipselIsMonotoneInTheFootprint := by
  unfold Obligations.MipselIsMonotoneInTheFootprint
  intro s a a' b c hrun hle make hmake
  obtain ⟨mode, rfl⟩ := eq_mipselInstr_of_mem hmake
  exact ⟨_, _, _, _, exec_mipsel_running mode hrun a b c, exec_mipsel_running mode hrun a' b c, rfl, rfl,
    parity_zext_mono mode (mipLevel_mono b c hle) (Nat.lt_succ_of_le (mipLevel_le a' b c))⟩

/-! ## Powers of two (R143) -/

/-- An integer clamped to the levels. -/
def clampInt (j : Int) : Nat := (min (max j 0) 7).toNat

theorem clampLevel_ofInteger (j : Int) : clampLevel (F32.ofInteger j) = clampInt j := by
  have hle := clampLevel_le (F32.ofInteger j)
  have hreach {k : Nat} (h1 : 1 ≤ k) (h7 : k ≤ 7) : k ≤ clampLevel (F32.ofInteger j) ↔ (k : Int) ≤ j := by
    rw [le_clampLevel_iff _ h1 h7, ofInteger_le]
  have hself := @hreach (clampLevel (F32.ofInteger j))
  have hclamp := @hreach (clampInt j)
  unfold clampInt at *
  omega

theorem f32_zero {w : Word} (h : w = 0x00000000#32 ∨ w = 0x80000000#32) : ∃ neg, f32 w = .finite neg 0 := by
  rcases h with rfl | rfl
  · exact ⟨false, rfl⟩
  · exact ⟨true, f32_negZero⟩

/-- Adding a zero keeps the magnitude of a value that a word has, and the sign unless it is a zero (R136). -/
theorem fadd_zero_of_representable {n neg : Bool} {m : Nat} (h : representable m = true) :
    fadd (.finite n m) (.finite neg 0) = .finite (if m = 0 then n && neg else n) m := by
  obtain ⟨hround, hlt⟩ := of_decide_eq_true h
  exact addFinite_zero_right n m neg hround hlt

/-- With zero biases the level is that of `LOG2`. -/
theorem clampLevel_fadd_zeros {w b c : Word} (hfin : (f32 w).isFinite = true)
    (hb : b = 0x00000000#32 ∨ b = 0x80000000#32) (hc : c = 0x00000000#32 ∨ c = 0x80000000#32) :
    clampLevel (fadd (fadd (f32 w) (f32 b)) (f32 c)) = clampLevel (f32 w) := by
  obtain ⟨nb, hb⟩ := f32_zero hb
  obtain ⟨nc, hc⟩ := f32_zero hc
  obtain ⟨hw, -⟩ := f32_of_isFinite w hfin
  have hrep := representable_of_f32 hw
  rw [hw, hb, hc, fadd_zero_of_representable hrep, fadd_zero_of_representable hrep]
  by_cases hzero : patternMag (w.toNat % 2 ^ 31) = 0
  · have hlevel (neg : Bool) : clampLevel (.finite neg 0) = 0 := by cases neg <;> rfl
    rw [hzero, hlevel, hlevel]
  · rw [if_neg hzero, if_neg hzero]

theorem mipLevel_zero_biases {a b c : Word} (hvalid : validFootprint a = true) (hinf : a ≠ 0x7F800000#32)
    (hb : b = 0x00000000#32 ∨ b = 0x80000000#32) (hc : c = 0x00000000#32 ∨ c = 0x80000000#32) :
    mipLevel a b c = clampLevel (f32 (params.log2 a)) := by
  rw [mipLevel, if_pos hvalid]
  exact clampLevel_fadd_zeros (params_log2_legal.total a hvalid hinf) hb hc

theorem powerOfTwoWord_valid {k : Int} (h1 : -149 ≤ k) (h2 : k ≤ 127) :
    validFootprint (powerOfTwoWord k) = true ∧ powerOfTwoWord k ≠ 0x7F800000#32 := by
  obtain ⟨-, -, hpos, hlt⟩ := powerOfTwoWord_toNat k h1 h2
  refine ⟨(validFootprint_iff_toNat _).2 ⟨hpos, hlt.le⟩, fun hinf => ?_⟩
  rw [hinf] at hlt
  exact absurd hlt (by decide)

/-- The clamped level of `LOG2` of `2^k`, by P2. -/
theorem clampLevel_log2_powerOfTwoWord {k : Int} (h1 : -149 ≤ k) (h2 : k ≤ 127) :
    clampLevel (f32 (params.log2 (powerOfTwoWord k))) = clampInt k := by
  rw [params_log2_legal.exact k h1 h2, clampLevel_ofInteger]

/-- `LOG2` and the clamp keep the order of valid footprints, by P3. -/
theorem clampLevel_log2_mono {x y : Word} (hx : validFootprint x = true) (hy : validFootprint y = true)
    (h : (f32 y).le (f32 x) = false) : clampLevel (f32 (params.log2 x)) ≤ clampLevel (f32 (params.log2 y)) := by
  have hnot := mt (f32_le_iff_toNat hy hx).2 (ne_true_of_eq_false h)
  exact clampLevel_mono (params_log2_legal.monotone x y hx hy ((f32_le_iff_toNat hx hy).2 (by omega)))

/-- Strictly between two powers of two the level is that of one of them. -/
theorem clampLevel_log2_between {a : Word} {k : Int} (h1 : -149 ≤ k) (h2 : k ≤ 127) (hvalid : validFootprint a = true)
    (hlo : (f32 a).le (f32 (powerOfTwoWord k)) = false)
    (hhi : k < 127 → (f32 (powerOfTwoWord (k + 1))).le (f32 a) = false) :
    clampLevel (f32 (params.log2 a)) = clampInt k ∨ clampLevel (f32 (params.log2 a)) = clampInt (k + 1) := by
  have hlower := clampLevel_log2_mono (powerOfTwoWord_valid h1 h2).1 hvalid hlo
  rw [clampLevel_log2_powerOfTwoWord h1 h2] at hlower
  have hupper : clampLevel (f32 (params.log2 a)) ≤ clampInt (k + 1) := by
    by_cases hlast : k < 127
    · have hpower := powerOfTwoWord_valid (k := k + 1) (by omega) (by omega)
      rw [← clampLevel_log2_powerOfTwoWord (by omega) (by omega)]
      exact clampLevel_log2_mono hvalid hpower.1 (hhi hlast)
    · obtain rfl : k = 127 := by omega
      exact clampLevel_le _
  unfold clampInt at *
  omega

/-- MIPSEL.ANY of a valid footprint answers with its level and changes nothing else. -/
theorem exec_mipselAny_valid {s : State} (h : s.halted = false) {a : Word} (hvalid : validFootprint a = true)
    (b c : Word) : exec (.mipselAny a b c) s =
      .next { s with responses := s.responses ++ [⟨BitVec.ofNat 32 (mipLevel a b c), 0#32, 0#32⟩] } := by
  have hexec := exec_mipsel_running .any h a b c
  simpa [mipselInstr, parity, zext, hvalid, h] using hexec

/-- Settles O40: `LOG2` is exact on powers of two and monotone between them, and zero biases keep its level. -/
theorem mipselOfPowersOfTwo : Obligations.MipselOfPowersOfTwo := by
  unfold Obligations.MipselOfPowersOfTwo
  intro s k b c hrun h1 h2 hb hc clamp answers
  have hanswers {a : Word} (hvalid : validFootprint a = true) (hinf : a ≠ 0x7F800000#32) :
      answers a (clampLevel (f32 (params.log2 a))) := by
    rw [← mipLevel_zero_biases hvalid hinf hb hc]
    exact exec_mipselAny_valid hrun hvalid b c
  constructor
  · obtain ⟨hvalid, hinf⟩ := powerOfTwoWord_valid h1 h2
    have hpower := hanswers hvalid hinf
    rwa [clampLevel_log2_powerOfTwoWord h1 h2] at hpower
  · intro a hvalid hlo hhi hinf
    have hlevel := hanswers hvalid hinf
    rcases clampLevel_log2_between h1 h2 hvalid hlo hhi with heq | heq
    · rw [heq] at hlevel
      exact .inl hlevel
    · rw [heq] at hlevel
      exact .inr hlevel

end Sys2Proof.Machine
end

section
/-! SUPPORT. The froxel codec (42_froxel.md): one equation per case of each rule, the next state of a running unit for a
rule with at most one cause, and the round trips. -/

namespace Sys2Proof.Machine

/-! ## A command with at most one cause, on a running unit -/

/-- A command that raises nothing adds its response, and changes nothing else. -/
theorem exec_of_effectOf_clean {i : Instr} {s : State} {r0 r1 : Word} (hi : writtenState i s = s)
    (he : effectOf i s = { r0 := r0, r1 := r1 }) :
    exec i s = .next { s with responses := s.responses ++ [⟨r0, r1, 0#32⟩] } := by
  rw [exec_eq, hi, he, endOfCommand_clean]

/-- The next state of a running unit after a command that raises the logged cause `c` if `bad`, else nothing
(R202, R203, R206). -/
theorem exec_of_effectOf_cause_if {i : Instr} {s : State} {r0 r1 : Word} {c : Cause} {bad : Bool}
    (hrun : s.halted = false) (hc : c.isLogged = true) (hi : writtenState i s = s)
    (he : effectOf i s = { r0 := r0, r1 := r1, causes := if bad then [c] else [] }) :
    exec i s = .next { s with
      cause := s.cause ||| (if bad then c.logBit else 0#10)
      halted := s.failfast && bad
      responses := s.responses ++ [⟨r0, r1, if bad then BitVec.ofNat 32 c.code else 0#32⟩] } := by
  cases bad with
  | false =>
    rw [exec_of_effectOf_clean hi he]
    simp [hrun]
  | true =>
    rw [exec_eq, hi, he]
    simp [endOfCommand_one_cause _ _ _ hc, hrun]

/-! ## FXPACK by case (R155) -/

section Rules

variable {p : Params} {z : Word}

theorem fxpackRule_of_invalidSlice (xy : Word) (hz : z.toInt = p.invalidPackedZ - p.sliceBias) :
    fxpackRule p xy z = { r0 := xy, r1 := word p.invalidPackedZ } :=
  if_pos hz

/-- The logical sentinel lies below the representable range (R152). -/
theorem invalidSlice_lt_zMin (hp : ParamsLegal p) : invalidSlice p < zMin p := by
  have := hp.invalidPackedZ_neg
  unfold invalidSlice zMin
  omega

theorem fxpackRule_of_representable (hp : ParamsLegal p) (xy : Word) (hlo : -p.sliceBias ≤ z.toInt)
    (hhi : z.toInt ≤ 2 ^ 31 - 1 - p.sliceBias) :
    fxpackRule p xy z = { r0 := xy, r1 := word (z.toInt + p.sliceBias) } :=
  (if_neg ((invalidSlice_lt_zMin hp).trans_le hlo).ne').trans (if_pos ⟨hlo, hhi⟩)

theorem fxpackRule_of_lt_zMin (xy : Word) (hlt : z.toInt < -p.sliceBias)
    (hne : z.toInt ≠ p.invalidPackedZ - p.sliceBias) :
    fxpackRule p xy z = { r0 := xy, r1 := word 0, causes := [.fxSlice] } :=
  (if_neg hne).trans ((if_neg fun h => h.1.not_gt hlt).trans (if_pos hlt))

theorem fxpackRule_of_zMax_lt (hp : ParamsLegal p) (xy : Word) (hgt : 2 ^ 31 - 1 - p.sliceBias < z.toInt) :
    fxpackRule p xy z = { r0 := xy, r1 := word (2 ^ 31 - 1), causes := [.fxSlice] } := by
  have hge : zMin p ≤ z.toInt := by
    unfold zMin
    omega
  have hne : z.toInt ≠ invalidSlice p := ((invalidSlice_lt_zMin hp).trans_le hge).ne'
  exact (if_neg hne).trans ((if_neg fun h => h.2.not_gt hgt).trans (if_neg hge.not_gt))

/-- XY is carried, whatever the slice is. -/
theorem fxpackRule_r0 (p : Params) (xy z : Word) : (fxpackRule p xy z).r0 = xy := by
  simp only [fxpackRule, apply_ite Effect.r0, ite_self]

/-! ## FXUNPZ by case (R156) -/

theorem fxunpzRule_of_sentinel (hz : z.toInt = p.invalidPackedZ) :
    fxunpzRule p z = { r0 := word (p.invalidPackedZ - p.sliceBias) } :=
  if_pos hz

theorem fxunpzRule_of_nonneg (hp : ParamsLegal p) (hz : 0 ≤ z.toInt) :
    fxunpzRule p z = { r0 := word (z.toInt - p.sliceBias) } := by
  have hne : z.toInt ≠ p.invalidPackedZ := by
    have := hp.invalidPackedZ_neg
    omega
  exact (if_neg hne).trans (if_pos hz)

theorem fxunpzRule_of_neg (hneg : z.toInt < 0) (hne : z.toInt ≠ p.invalidPackedZ) :
    fxunpzRule p z = { r0 := word (max (z.toInt - p.sliceBias) (-2 ^ 31)), causes := [.fxPacked] } :=
  (if_neg hne).trans (if_neg hneg.not_ge)

end Rules

/-! ## The commands for all operands -/

section Running

variable {s : State} (hrun : s.halted = false)
include hrun

theorem effectOf_fxpack_running (xy z : Word) : effectOf (.fxpack xy z) s = fxpackRule params xy z :=
  unitEffect_running hrun _

theorem effectOf_fxunpz_running (z : Word) : effectOf (.fxunpz z) s = fxunpzRule params z :=
  unitEffect_running hrun _

/-- FXPACK while running, from what its rule gives. -/
theorem exec_fxpack_running {xy z r1 : Word} {bad : Bool}
    (hrule : fxpackRule params xy z = { r0 := xy, r1 := r1, causes := if bad then [.fxSlice] else [] }) :
    exec (.fxpack xy z) s = .next { s with
      cause := s.cause ||| (if bad then 0b10000#10 else 0#10)
      halted := s.failfast && bad
      responses := s.responses ++ [⟨xy, r1, if bad then 5#32 else 0#32⟩] } :=
  exec_of_effectOf_cause_if (c := .fxSlice) hrun rfl rfl ((effectOf_fxpack_running hrun xy z).trans hrule)

/-- FXUNPZ while running, from what its rule gives. -/
theorem exec_fxunpz_running {z r0 : Word} {bad : Bool}
    (hrule : fxunpzRule params z = { r0 := r0, causes := if bad then [.fxPacked] else [] }) :
    exec (.fxunpz z) s = .next { s with
      cause := s.cause ||| (if bad then 0b100000#10 else 0#10)
      halted := s.failfast && bad
      responses := s.responses ++ [⟨r0, 0#32, if bad then 6#32 else 0#32⟩] } :=
  exec_of_effectOf_cause_if (c := .fxPacked) hrun rfl rfl ((effectOf_fxunpz_running hrun z).trans hrule)

/-- FXPACK that raises nothing answers, and changes nothing else. -/
theorem exec_fxpack_clean {xy z r1 : Word} (hrule : fxpackRule params xy z = { r0 := xy, r1 := r1 }) :
    exec (.fxpack xy z) s = .next { s with responses := s.responses ++ [⟨xy, r1, 0#32⟩] } :=
  exec_of_effectOf_clean rfl ((effectOf_fxpack_running hrun xy z).trans hrule)

/-- FXUNPZ that raises nothing answers, and changes nothing else. -/
theorem exec_fxunpz_clean {z r0 : Word} (hrule : fxunpzRule params z = { r0 := r0 }) :
    exec (.fxunpz z) s = .next { s with responses := s.responses ++ [⟨r0, 0#32, 0#32⟩] } :=
  exec_of_effectOf_clean rfl ((effectOf_fxunpz_running hrun z).trans hrule)

/-- FXISINV while running: 1 for the sentinel, else 0, and no cause. -/
theorem exec_fxisinv_running (z : Word) :
    exec (.fxisinv z) s = .next { s with
      responses := s.responses ++ [⟨if z.toInt = params.invalidPackedZ then 1#32 else 0#32, 0#32, 0#32⟩] } :=
  exec_of_effectOf_clean rfl (unitEffect_running hrun _)

end Running

/-- Settles O45. -/
theorem fxisinvTestsForTheSentinel : Obligations.FxisinvTestsForTheSentinel :=
  fun _ z hrun => exec_fxisinv_running hrun z

/-- Settles O43: the four cases of the rule. -/
theorem fxpackBiasesOrSaturates : Obligations.FxpackBiasesOrSaturates := by
  unfold Obligations.FxpackBiasesOrSaturates
  intro s xy z hrun bias after
  have hp : ParamsLegal params := buildParametersAreLegal
  refine ⟨fun hz => ?_, fun hlo hhi => ?_, fun hlt hne => ?_, fun hgt => ?_⟩
  · exact exec_fxpack_running hrun (bad := false) (fxpackRule_of_invalidSlice xy hz)
  · exact exec_fxpack_running hrun (bad := false) (fxpackRule_of_representable hp xy hlo hhi)
  · exact exec_fxpack_running hrun (bad := true) (fxpackRule_of_lt_zMin xy hlt hne)
  · exact exec_fxpack_running hrun (bad := true) (fxpackRule_of_zMax_lt hp xy hgt)

/-- Settles O44: the three cases of the rule. -/
theorem fxunpzUnbiasesOrSaturates : Obligations.FxunpzUnbiasesOrSaturates := by
  unfold Obligations.FxunpzUnbiasesOrSaturates
  intro s z hrun bias after
  refine ⟨fun hz => ?_, fun hz => ?_, fun hneg hne => ?_⟩
  · exact exec_fxunpz_running hrun (bad := false) (fxunpzRule_of_sentinel hz)
  · exact exec_fxunpz_running hrun (bad := false) (fxunpzRule_of_nonneg buildParametersAreLegal hz)
  · exact exec_fxunpz_running hrun (bad := true) (fxunpzRule_of_neg hneg hne)

/-! ## The round trips (R158) -/

theorem word_toInt (w : Word) : word w.toInt = w := BitVec.ofInt_toInt

/-- The sentinel is a signed 32-bit value (R152). -/
theorem toInt_word_invalidPackedZ {p : Params} (hp : ParamsLegal p) :
    (word p.invalidPackedZ).toInt = p.invalidPackedZ := by
  obtain ⟨hnonneg, -, hge, hneg, -⟩ := hp
  exact toInt_word _ (by omega) (by omega)

/-- The bias takes a representable slice to a non-negative signed 32-bit value (R151). -/
theorem toInt_word_add_sliceBias {p : Params} {z : Int} (hlo : -p.sliceBias ≤ z) (hhi : z ≤ 2 ^ 31 - 1 - p.sliceBias) :
    (word (z + p.sliceBias)).toInt = z + p.sliceBias :=
  toInt_word _ (by omega) (by omega)

/-- Settles O46: a representable slice packs to its non-negative biased value, the invalid slice to the negative
sentinel, and unpacking subtracts the bias that packing added. -/
theorem froxelCodecRoundTrips : Obligations.FroxelCodecRoundTrips := by
  unfold Obligations.FroxelCodecRoundTrips
  intro s xy z hrun answers
  have hp : ParamsLegal params := buildParametersAreLegal
  refine ⟨fun hlo hhi => ?_, fun hz => ?_, ?_⟩
  · have hpacked := toInt_word_add_sliceBias hlo hhi
    have hnonneg : 0 ≤ (word (z.toInt + params.sliceBias)).toInt := by omega
    have hnotSentinel : (word (z.toInt + params.sliceBias)).toInt ≠ params.invalidPackedZ :=
      (hp.invalidPackedZ_neg.trans_lt (by omega)).ne'
    have hunpack := exec_fxunpz_clean hrun (fxunpzRule_of_nonneg hp hnonneg)
    have hisinv := exec_fxisinv_running hrun (word (z.toInt + params.sliceBias))
    rw [hpacked, add_sub_cancel_right, word_toInt] at hunpack
    rw [if_neg hnotSentinel] at hisinv
    exact ⟨_, exec_fxpack_clean hrun (fxpackRule_of_representable hp xy hlo hhi), hunpack, hisinv⟩
  · have hsentinel := toInt_word_invalidPackedZ hp
    have hunpack := exec_fxunpz_clean hrun (fxunpzRule_of_sentinel hsentinel)
    have hisinv := exec_fxisinv_running hrun (word params.invalidPackedZ)
    rw [← hz, word_toInt] at hunpack
    rw [if_pos hsentinel] at hisinv
    exact ⟨_, exec_fxpack_clean hrun (fxpackRule_of_invalidSlice xy hz), hunpack, hisinv⟩
  · refine ⟨_, _, exec_eq _ s, rfl, ?_⟩
    rw [effectOf_fxpack_running hrun]
    exact fxpackRule_r0 params xy z

end Sys2Proof.Machine
end

section
/-! SUPPORT. The invalidation-payload codec (43_invalidation.md): the rules of the three commands on the fields of a payload
as numbers, IVPACK for all operands, and the round trips. -/

namespace Sys2Proof.Machine

/-! ## The rules (R172 to R174) -/

/-- The rule of IVPACK with its result word as an append (R172). -/
theorem ivpackRule_eq (flags vsmId : Word) : ivpackRule flags vsmId =
    { r0 := vsmId.extractLsb' 0 24 ++ flags.extractLsb' 0 8
      causes := (if 0xFF < flags.toNat then [.ivFlags] else []) ++ (if 0xFFFFFF < vsmId.toNat then [.ivId] else []) } := by
  rw [← ivpackRule_r0_eq_append]
  rfl

/-- The rule of IVFLAGS: the mask is a remainder (R173). -/
theorem ivflagsRule_eq (payload : Word) : ivflagsRule payload = { r0 := BitVec.ofNat 32 (payload.toNat % 256) } := by
  have hmask : (payload &&& 0x000000FF#32).toNat = payload.toNat % 256 := Nat.and_two_pow_sub_one_eq_mod _ 8
  rw [ivflagsRule, ← hmask, BitVec.ofNat_toNat, BitVec.setWidth_eq]

/-- The rule of IVID: the logical shift is a quotient (R174). -/
theorem ividRule_eq (payload : Word) : ividRule payload = { r0 := BitVec.ofNat 32 (payload.toNat / 256) } := by
  have hshift : (payload >>> invFlagBits).toNat = payload.toNat / 256 := Nat.shiftRight_eq_div_pow _ 8
  rw [ividRule, ← hshift, BitVec.ofNat_toNat, BitVec.setWidth_eq]

/-! ## The rules on the fields of a payload (R175) -/

section Fields

variable {payload flags vsmId : Word} (hflags : flags.toNat ≤ 255)
  (hpayload : payload.toNat = vsmId.toNat * 256 + flags.toNat)
include hflags hpayload

theorem ivpackRule_of_fields : ivpackRule flags vsmId = { r0 := payload } := by
  have happend : vsmId.extractLsb' 0 24 ++ flags.extractLsb' 0 8 = payload := by
    apply BitVec.eq_of_toNat_eq
    rw [BitVec.toNat_append (x := vsmId.extractLsb' 0 24), ← Nat.shiftLeft_add_eq_or_of_lt (BitVec.isLt _),
      Nat.shiftLeft_eq, BitVec.extractLsb'_toNat, BitVec.extractLsb'_toNat, Nat.shiftRight_zero, Nat.shiftRight_zero]
    omega
  rw [ivpackRule_eq, happend, if_neg (by omega), if_neg (by omega)]
  rfl

theorem ivflagsRule_of_fields : ivflagsRule payload = { r0 := flags } := by
  have hmod : payload.toNat % 256 = flags.toNat := by omega
  rw [ivflagsRule_eq, hmod, BitVec.ofNat_toNat, BitVec.setWidth_eq]

theorem ividRule_of_fields : ividRule payload = { r0 := vsmId } := by
  have hdiv : payload.toNat / 256 = vsmId.toNat := by omega
  rw [ividRule_eq, hdiv, BitVec.ofNat_toNat, BitVec.setWidth_eq]

end Fields

/-! ## The commands on a running unit -/

section Running

variable {s : State} (hrun : s.halted = false)
include hrun

/-- IVPACK that raises nothing answers, and changes nothing else. -/
theorem exec_ivpack_clean {flags vsmId r0 : Word} (hrule : ivpackRule flags vsmId = { r0 := r0 }) :
    exec (.ivpack flags vsmId) s = .next { s with responses := s.responses ++ [⟨r0, 0#32, 0#32⟩] } :=
  exec_of_effectOf_clean rfl ((unitEffect_running hrun _).trans hrule)

/-- IVFLAGS answers, and changes nothing else. -/
theorem exec_ivflags_clean {payload r0 : Word} (hrule : ivflagsRule payload = { r0 := r0 }) :
    exec (.ivflags payload) s = .next { s with responses := s.responses ++ [⟨r0, 0#32, 0#32⟩] } :=
  exec_of_effectOf_clean rfl ((unitEffect_running hrun _).trans hrule)

/-- IVID answers, and changes nothing else. -/
theorem exec_ivid_clean {payload r0 : Word} (hrule : ividRule payload = { r0 := r0 }) :
    exec (.ivid payload) s = .next { s with responses := s.responses ++ [⟨r0, 0#32, 0#32⟩] } :=
  exec_of_effectOf_clean rfl ((unitEffect_running hrun _).trans hrule)

end Running

/-- Settles O47: the range checks of the two fields are causes 7 and 8, whatever the masks keep. -/
theorem ivpackMasksAndReports : Obligations.IvpackMasksAndReports := by
  unfold Obligations.IvpackMasksAndReports
  intro s flags vsmId hrun
  have heffect : effectOf (.ivpack flags vsmId) s = _ := (unitEffect_running hrun _).trans (ivpackRule_eq flags vsmId)
  have hend := endOfCommand_two_checks s.failfast (vsmId.extractLsb' 0 24 ++ flags.extractLsb' 0 8) 0#32 (c := .ivFlags)
    (d := .ivId) rfl rfl (by decide) (0xFF < flags.toNat) (0xFFFFFF < vsmId.toNat) s
  rw [hrun, Bool.false_or, Cause.logBit_eq, Cause.logBit_eq] at hend
  simp only [decide_eq_true_eq]
  rw [exec_eq, heffect]
  exact congrArg _ hend

/-- Settles O48: the mask is the remainder by 256, and the logical shift the quotient. -/
theorem ivflagsAndIvidSplitThePayload : Obligations.IvflagsAndIvidSplitThePayload :=
  fun _ payload hrun => ⟨exec_ivflags_clean hrun (ivflagsRule_eq payload), exec_ivid_clean hrun (ividRule_eq payload)⟩

/-- Settles O49: fields in range make a payload, and the quotient and the remainder by 256 of a payload are its fields. -/
theorem payloadCodecRoundTrips : Obligations.PayloadCodecRoundTrips := by
  unfold Obligations.PayloadCodecRoundTrips
  intro s hrun answers
  constructor
  · intro flags vsmId hflags hid
    have hpayload : (BitVec.ofNat 32 (vsmId.toNat * 256 + flags.toNat)).toNat = vsmId.toNat * 256 + flags.toNat :=
      Nat.mod_eq_of_lt (by omega)
    exact ⟨_, exec_ivpack_clean hrun (ivpackRule_of_fields hflags hpayload),
      exec_ivflags_clean hrun (ivflagsRule_of_fields hflags hpayload),
      exec_ivid_clean hrun (ividRule_of_fields hflags hpayload)⟩
  · intro payload
    have hmod : (BitVec.ofNat 32 (payload.toNat % 256)).toNat = payload.toNat % 256 := Nat.mod_eq_of_lt (by omega)
    have hdiv : (BitVec.ofNat 32 (payload.toNat / 256)).toNat = payload.toNat / 256 := Nat.mod_eq_of_lt (by omega)
    have hflags : (BitVec.ofNat 32 (payload.toNat % 256)).toNat ≤ 255 := by omega
    have hid : (BitVec.ofNat 32 (payload.toNat / 256)).toNat ≤ 2 ^ 24 - 1 := by omega
    have hpayload : payload.toNat = (BitVec.ofNat 32 (payload.toNat / 256)).toNat * 256 +
        (BitVec.ofNat 32 (payload.toNat % 256)).toNat := by omega
    exact ⟨_, _, exec_ivflags_clean hrun (ivflagsRule_eq payload), exec_ivid_clean hrun (ividRule_eq payload), hflags,
      hid, exec_ivpack_clean hrun (ivpackRule_of_fields hflags hpayload)⟩

end Sys2Proof.Machine
end

section
/-! SUPPORT. CSRR of the three registers of the CTL state (44_csr.md R185, 10_state.md R45 to R47). -/

namespace Sys2Proof.Machine

/-- Settles O52: each of the three addresses is mapped, and ERRSTAT as its word is ERRSTAT as its fields. -/
theorem csrrReadsTheControlState : Obligations.CsrrReadsTheControlState := by
  unfold Obligations.CsrrReadsTheControlState
  intro s
  rw [← errstatWord_eq_append]
  exact ⟨exec_csrr_mapped (r := .ctrl) rfl s, exec_csrr_mapped (r := .errstat) rfl s, exec_csrr_mapped (r := .halt) rfl s⟩

end Sys2Proof.Machine
end

section
/-! SUPPORT. Causes, the status, the log and the halt (60_exceptions.md R202 to R209): what the end-of-command steps can
change, which commands write the CTL state otherwise, and what a step can clear. -/

namespace Sys2Proof.Machine

/-- Settles O3. -/
theorem idleUnitStaysAsItIs : Obligations.IdleUnitStaysAsItIs := by
  unfold Obligations.IdleUnitStaysAsItIs
  intro s hin
  simp only [step, hin]

/-! ## The status code (R202) -/

/-- The status of a non-empty cause set is the code of one of its causes. -/
theorem exists_mem_code_eq_statusOf {cs : List Cause} (h : cs ≠ []) : ∃ c ∈ cs, (statusOf cs).toNat = c.code := by
  cases cs with
  | nil => exact absurd rfl h
  | cons c cs =>
    rw [statusOf_toNat_cons]
    rcases (foldl_min_code cs c.code).1 with hhead | ⟨d, hd, htail⟩
    · exact ⟨c, List.mem_cons_self, hhead⟩
    · exact ⟨d, List.mem_cons_of_mem c hd, htail⟩

/-- Settles O14. -/
theorem statusIsTheLowestCause : Obligations.StatusIsTheLowestCause := by
  unfold Obligations.StatusIsTheLowestCause
  intro debug e s
  refine ⟨statusOf e.causes, rfl, statusOf_eq_zero_iff.2, fun hne => ⟨exists_mem_code_eq_statusOf hne, ?_⟩⟩
  exact fun c hc => (statusOf_bounds_of_mem hc).2

/-- Status 11 is that of `E_HALTED` alone. -/
theorem halted_mem_of_statusOf_eq {cs : List Cause} (h : statusOf cs = 11#32) : .halted ∈ cs := by
  have hne : cs ≠ [] := by rintro rfl; exact absurd h (by decide)
  obtain ⟨c, hc, hcode⟩ := exists_mem_code_eq_statusOf hne
  rw [h] at hcode
  cases c with
  | halted => exact hc
  | _ => exact absurd hcode (by decide)

/-- A cause set halts the unit in debug mode exactly when its status is a code in 1..10 (R206). -/
theorem haltsWhenDebug_iff_statusOf (cs : List Cause) :
    haltsWhenDebug cs = true ↔ 1 ≤ (statusOf cs).toNat ∧ (statusOf cs).toNat ≤ 10 := by
  rw [haltsWhenDebug, List.any_eq_true]
  constructor
  · rintro ⟨c, hc, hlog⟩
    obtain ⟨hpos, hle⟩ := statusOf_bounds_of_mem hc
    exact ⟨hpos, hle.trans (of_decide_eq_true hlog).2⟩
  · rintro ⟨hpos, hle⟩
    have hne : cs ≠ [] := by rintro rfl; exact absurd hpos (by decide)
    obtain ⟨c, hc, hcode⟩ := exists_mem_code_eq_statusOf hne
    exact ⟨c, hc, decide_eq_true (hcode ▸ ⟨hpos, hle⟩)⟩

/-! ## The end-of-command steps only add to the log and to the halt -/

theorem endOfCommand_keeps_cause (debug : Bool) (e : Effect) {s : State} {k : Nat} (h : s.cause.getLsbD k = true) :
    (endOfCommand debug e s).cause.getLsbD k = true := by
  rw [endOfCommand_cause, logCauses_getLsbD]
  exact .inl h

theorem endOfCommand_keeps_halted (debug : Bool) (e : Effect) {s : State} (h : s.halted = true) :
    (endOfCommand debug e s).halted = true := by
  rw [endOfCommand_halted, h, Bool.true_or]

/-- The refusal while halted is neither logged nor does it halt (R203, R206, R207). -/
theorem endOfCommand_haltedRefusal (debug : Bool) (s : State) :
    endOfCommand debug haltedRefusal s = { s with responses := s.responses ++ [⟨0#32, 0#32, 11#32⟩] } := by
  simp [endOfCommand, haltedRefusal, Cause.logBit_eq, haltsWhenDebug, Cause.isLogged, statusOf, Cause.code]

/-! ## What an instruction reports, and what it writes -/

/-- The response that an instruction adds is that of its effect. -/
theorem response_of_exec {i : Instr} {s t : State} {r : Response} (h : exec i s = .next t)
    (hr : t.responses = s.responses ++ [r]) : r = (effectOf i s).response := by
  rw [exec_next_iff.1 h, endOfCommand_responses, writtenState_responses, List.append_cancel_left_eq,
    List.singleton_inj] at hr
  exact hr.symm

/-- An instruction that raises a cause writes nothing before the end-of-command steps (R186, R204). -/
theorem writtenState_of_causes {i : Instr} {s : State} (h : (effectOf i s).causes ≠ []) : writtenState i s = s := by
  cases i with
  | csrw a v => exact csrwWrite_of_causes h
  | _ => rfl

/-- An instruction that reports a cause does its end-of-command steps and nothing else (R204). -/
theorem eq_endOfCommand_of_status {i : Instr} {s t : State} {r : Response} (h : exec i s = .next t)
    (hr : t.responses = s.responses ++ [r]) (hst : r.st ≠ 0#32) :
    (effectOf i s).causes ≠ [] ∧ t = endOfCommand s.failfast (effectOf i s) s := by
  rw [response_of_exec h hr] at hst
  have hcauses := mt statusOf_eq_zero_iff.2 hst
  refine ⟨hcauses, ?_⟩
  rw [exec_next_iff.1 h, writtenState_of_causes hcauses]

/-- Settles O20: the command does its end-of-command steps alone. -/
theorem violationChangesOnlyLogAndHalt : Obligations.ViolationChangesOnlyLogAndHalt := by
  unfold Obligations.ViolationChangesOnlyLogAndHalt
  intro i s t r hexec hr hst
  obtain ⟨-, rfl⟩ := eq_endOfCommand_of_status hexec hr hst
  refine ⟨rfl, rfl, fun k => endOfCommand_keeps_cause _ _, endOfCommand_keeps_halted _ _, fun hrun hhalt => ?_⟩
  rw [endOfCommand_halted, hrun, Bool.false_or] at hhalt
  exact (Bool.and_eq_true_iff.1 hhalt).1

/-- Settles O16: the write of a running unit does not halt it, so its cause set does. -/
theorem causeInDebugModeHaltsTheUnit : Obligations.CauseInDebugModeHaltsTheUnit := by
  unfold Obligations.CauseInDebugModeHaltsTheUnit
  intro i s hrun
  have hwritten : (writtenState i s).halted = false :=
    Bool.eq_false_iff.2 (mt (writtenState_only_clears i s).2 (Bool.eq_false_iff.1 hrun))
  refine ⟨_, (effectOf i s).response, exec_eq i s, ?_, ?_⟩
  · rw [endOfCommand_responses, writtenState_responses]
    rfl
  · rw [endOfCommand_halted, hwritten, Bool.false_or, Bool.and_eq_true, haltsWhenDebug_iff_statusOf]
    rfl

/-- Settles O21: the command writes nothing itself, and neither status 0 nor status 11 leaves a trace. -/
theorem commandsOtherThanCsrwKeepTheControlState : Obligations.CommandsOtherThanCsrwKeepTheControlState := by
  unfold Obligations.CommandsOtherThanCsrwKeepTheControlState
  intro i s hi
  have hexec := exec_eq i s
  rw [writtenState_other s hi] at hexec
  refine ⟨_, (effectOf i s).response, hexec, rfl, rfl, rfl, fun k => endOfCommand_keeps_cause _ _,
    endOfCommand_keeps_halted _ _, ?_⟩
  rintro (hclean | hrefused)
  · rw [endOfCommand_of_no_causes _ (statusOf_eq_zero_iff.1 hclean), ← hclean]
    rfl
  · rw [effectOf_of_halted_mem (halted_mem_of_statusOf_eq hrefused), endOfCommand_haltedRefusal]
    rfl

/-! ## While halted (R207, R209) -/

/-- No CSRR and no CSRW is refused for the halt. -/
theorem effectOf_csr_status_ne_halted {i : Instr} (hi : (∃ a, i = .csrr a) ∨ ∃ a v, i = .csrw a v) (s : State) :
    (effectOf i s).response.st ≠ 11#32 := by
  refine mt halted_mem_of_statusOf_eq ?_
  rcases hi with ⟨a, rfl⟩ | ⟨a, v, rfl⟩
  · cases hr : csrAt a <;> simp [effectOf, csrrRule, hr]
  · cases hr : csrAt a <;> simp [effectOf, csrwRule, hr, apply_ite Effect.causes]

/-- Every other instruction is refused. -/
theorem exec_halted {i : Instr} {s : State} (h : s.halted = true)
    (hi : ¬((∃ a, i = .csrr a) ∨ ∃ a v, i = .csrw a v)) :
    exec i s = .next { s with responses := s.responses ++ [⟨0#32, 0#32, 11#32⟩] } := by
  have heffect : effectOf i s = haltedRefusal := by
    cases i with
    | csrr a => exact absurd (.inl ⟨a, rfl⟩) hi
    | csrw a v => exact absurd (.inr ⟨a, v, rfl⟩) hi
    | _ => exact unitEffect_halted h _
  have hwritten : writtenState i s = s := writtenState_other s fun a v hw => hi (.inr ⟨a, v, hw⟩)
  rw [exec_eq, heffect, hwritten, endOfCommand_haltedRefusal]

/-- What decodes from a CSR opcode is a CSRR or a CSRW, and from no other. -/
theorem isCsrOpcode_iff_of_decode {c : Command} {i : Instr} (h : decode c = .ok i) :
    isCsrOpcode (opField c.cmd) = true ↔ (∃ a, i = .csrr a) ∨ ∃ a v, i = .csrw a v := by
  obtain ⟨op, hop, -, -, -, -, -, rfl⟩ := (decode_ok_iff c i).1 h
  rw [(opcode_ofBits_iff _ op).1 hop]
  cases op with
  | mipsel => rcases instr_mipsel_cases c with ⟨-, hm⟩ | ⟨-, hm⟩ | ⟨-, -, hm⟩ <;> simp [hm, isCsrOpcode]
  | _ => simp [Opcode.instr, isCsrOpcode]

/-- Settles O6: what decodes is refused unless it is a CSRR or a CSRW, and what does not decode is refused. -/
theorem haltedUnitRefusesAllButCsrCommands : Obligations.HaltedUnitRefusesAllButCsrCommands := by
  unfold Obligations.HaltedUnitRefusesAllButCsrCommands
  intro s c rest hhalt hin
  constructor
  · intro hcsrr hcsrw
    have hop : isCsrOpcode (opField c.cmd) = false := (isCsrOpcode_eq_false_iff _).2 ⟨hcsrr, hcsrw⟩
    cases hdec : decode c with
    | ok i =>
      rw [step_command hin hdec, exec_halted (s := { s with inputs := rest }) hhalt]
      rw [← isCsrOpcode_iff_of_decode hdec, hop]
      exact Bool.false_ne_true
    | error e =>
      rw [step_illegal hin hdec, refuseCommand_eq, hop, hhalt]
      exact congrArg _ (endOfCommand_haltedRefusal _ _)
  · intro i hop hdec
    have hcsr : isCsrOpcode (opField c.cmd) = true := by
      rcases hop with hop | hop <;> simp [isCsrOpcode, opField, hop]
    refine ⟨step_command hin hdec, _, (effectOf i { s with inputs := rest }).response,
      (step_command hin hdec).trans (exec_eq _ _), ?_,
      effectOf_csr_status_ne_halted ((isCsrOpcode_iff_of_decode hdec).1 hcsr) _⟩
    rw [endOfCommand_responses, writtenState_responses]
    rfl

/-- Settles O18: the status is the code of a cause, which is not `E_HALTED`, so its bit is set. -/
theorem causeWhileHaltedIsLoggedAndStaysHalted : Obligations.CauseWhileHaltedIsLoggedAndStaysHalted := by
  unfold Obligations.CauseWhileHaltedIsLoggedAndStaysHalted
  intro s i t r hhalt hi hexec hr hcause
  obtain ⟨hcauses, rfl⟩ := eq_endOfCommand_of_status hexec hr hcause
  obtain ⟨c, hc, hcode⟩ := exists_mem_code_eq_statusOf hcauses
  have hne : (statusOf (effectOf i s).causes).toNat ≠ 11 :=
    fun h => effectOf_csr_status_ne_halted hi s (BitVec.eq_of_toNat_eq h)
  have hbounds := c.code_bounds
  have hst : r.st = statusOf (effectOf i s).causes := congrArg Response.st (response_of_exec hexec hr)
  rw [hst]
  exact ⟨endOfCommand_keeps_halted _ _ hhalt,
    (logCauses_getLsbD _ _ _).2 (.inr ⟨by omega, c, hc, by omega⟩)⟩

/-! ## What a step can clear (R203, R208) -/

/-- Of the instructions, only a CSRW to ERRSTAT clears a bit of the log, where its value has a 1. -/
theorem csrwErrstat_of_exec_clears_cause {i : Instr} {s t : State} {k : Nat} (h : exec i s = .next t)
    (hset : s.cause.getLsbD k = true) (hclear : t.cause.getLsbD k = false) :
    ∃ v, i = .csrw 0x21 v ∧ v.getLsbD (k + 1) = true := by
  have hwritten : ¬(writtenState i s).cause.getLsbD k = true := by
    rw [exec_next_iff.1 h] at hclear
    exact mt (endOfCommand_keeps_cause _ _) (Bool.eq_false_iff.1 hclear)
  rcases writtenState_cases i s with hw | ⟨v, -, hw⟩ | ⟨v, rfl, hw⟩ | ⟨v, -, hw⟩ <;> rw [hw] at hwritten
  · exact absurd hset hwritten
  · exact absurd hset hwritten
  · have hk : k < 10 := BitVec.lt_of_getLsbD hset
    refine ⟨v, rfl, ?_⟩
    simpa [writeErrstat_cause_eq, -writeErrstat_cause, hset, hk, Nat.add_comm] using hwritten
  · exact absurd hset hwritten

/-- Of the instructions, only a CSRW to HALT with bit 0 set leaves the halt, and it keeps the log and FAILFAST. -/
theorem csrwHalt_of_exec_leaves_halt {i : Instr} {s t : State} (h : exec i s = .next t) (hhalt : s.halted = true)
    (hrun : t.halted = false) :
    ∃ v, i = .csrw 0x22 v ∧ v.getLsbD 0 = true ∧ t.cause = s.cause ∧ t.failfast = s.failfast := by
  have hwritten : ¬(writtenState i s).halted = true := by
    rw [exec_next_iff.1 h] at hrun
    exact mt (endOfCommand_keeps_halted _ _) (Bool.eq_false_iff.1 hrun)
  rcases writtenState_cases i s with hw | ⟨v, -, hw⟩ | ⟨v, -, hw⟩ | ⟨v, rfl, hw⟩ <;> rw [hw] at hwritten
  · exact absurd hhalt hwritten
  · exact absurd hhalt hwritten
  · exact absurd hhalt hwritten
  · rw [csrwHaltClearsHalted s v] at h
    injection h with h
    subst h
    refine ⟨v, rfl, ?_, rfl, rfl⟩
    simpa [hhalt] using hwritten

/-- A command that does not decode clears nothing. -/
theorem refuseCommand_keeps {cmd : Word} {s t : State} (h : refuseCommand cmd s = .next t) :
    (∀ k, s.cause.getLsbD k = true → t.cause.getLsbD k = true) ∧ (s.halted = true → t.halted = true) := by
  rw [refuseCommand_eq] at h
  injection h with h
  subst h
  exact ⟨fun k => endOfCommand_keeps_cause _ _, endOfCommand_keeps_halted _ _⟩

/-- Settles O15: the log after a cause set, and what a step can clear. -/
theorem logRecordsEveryCauseAndIsSticky : Obligations.LogRecordsEveryCauseAndIsSticky := by
  unfold Obligations.LogRecordsEveryCauseAndIsSticky
  refine ⟨fun debug e s n h1 h10 => ?_, fun debug s => ?_, fun s t n h1 h10 hstep hset hclear => ?_⟩
  · have hk : n - 1 < 10 := by omega
    rw [endOfCommand_cause, logCauses_getLsbD, Nat.sub_add_cancel h1, and_iff_right hk]
  · change (endOfCommand debug haltedRefusal s).cause = s.cause
    rw [endOfCommand_haltedRefusal]
  · rcases step_cases hstep with ⟨-, rfl⟩ | ⟨inFlight, rest, hin, -⟩ | ⟨c, rest, i, hin, hdec, hexec⟩ |
      ⟨c, rest, e, -, -, hrefuse⟩
    · exact absurd (hclear.symm.trans hset) Bool.false_ne_true
    · exact .inl ⟨inFlight, rest, hin⟩
    · obtain ⟨v, rfl, hv⟩ := csrwErrstat_of_exec_clears_cause hexec hset hclear
      rw [Nat.sub_add_cancel h1] at hv
      exact .inr ⟨c, rest, v, hin, hdec, hv⟩
    · exact absurd (hclear.symm.trans ((refuseCommand_keeps hrefuse).1 _ hset)) Bool.false_ne_true

/-- Settles O17, by what a step can do. -/
theorem haltEndsOnlyByCsrwHaltOrReset : Obligations.HaltEndsOnlyByCsrwHaltOrReset := by
  unfold Obligations.HaltEndsOnlyByCsrwHaltOrReset
  refine ⟨fun s t hstep hhalt hrun => ?_, fun s v hv => ?_⟩
  · rcases step_cases hstep with ⟨-, rfl⟩ | ⟨inFlight, rest, hin, -⟩ | ⟨c, rest, i, hin, hdec, hexec⟩ |
      ⟨c, rest, e, -, -, hrefuse⟩
    · exact absurd (hrun.symm.trans hhalt) Bool.false_ne_true
    · exact .inl ⟨inFlight, rest, hin⟩
    · obtain ⟨v, rfl, hv, hkept⟩ := csrwHalt_of_exec_leaves_halt hexec hhalt hrun
      exact .inr ⟨c, rest, v, hin, hdec, hv, hkept⟩
    · exact absurd (hrun.symm.trans ((refuseCommand_keeps hrefuse).2 hhalt)) Bool.false_ne_true
  · refine ⟨_, csrwHaltClearsHalted s v, ?_, rfl, rfl⟩
    simp [hv]

end Sys2Proof.Machine
end

section
/-! SUPPORT. Reset, the command port and several instances (70_reset_and_hazards.md R230, R236, R238, R240): a step always
goes on, so a run of commands is followed one command at a time. -/

namespace Sys2Proof.Machine

/-! ## One step, by the input it takes -/

theorem step_of_command {s : State} {c : Command} {rest : List HostInput} (hin : s.inputs = .command c :: rest) :
    step s = runCommand c { s with inputs := rest } := by
  simp [step, hin]

theorem step_of_reset {s : State} {inFlight : Option Command} {rest : List HostInput}
    (hin : s.inputs = .reset inFlight :: rest) : step s = .next (resetUnit { s with inputs := rest }) := by
  simp [step, hin]

/-- A command completes whether or not it decodes: it takes no further input and adds one response. -/
theorem runCommand_completes (c : Command) (s : State) :
    ∃ t r, runCommand c s = .next t ∧ t.inputs = s.inputs ∧ t.responses = s.responses ++ [r] := by
  unfold runCommand
  split
  · next i _ => exact ⟨_, _, exec_eq i s, writtenState_inputs i s, congrArg (· ++ _) (writtenState_responses i s)⟩
  · exact ⟨_, _, refuseCommand_eq c.cmd s, rfl, rfl⟩

/-- A step with a command outstanding runs it, takes it from the inputs and adds its response. -/
theorem step_command_completes {s : State} {c : Command} {rest : List HostInput} (hin : s.inputs = .command c :: rest) :
    ∃ t r, step s = .next t ∧ runCommand c { s with inputs := rest } = .next t ∧ t.inputs = rest ∧
      t.responses = s.responses ++ [r] := by
  obtain ⟨t, r, hrun, hrest, hresp⟩ := runCommand_completes c { s with inputs := rest }
  exact ⟨t, r, (step_of_command hin).trans hrun, hrun, hrest, hresp⟩

theorem step_goes_on (s : State) : StepsOn (step s) := by
  rcases hin : s.inputs with _ | ⟨⟨c⟩ | ⟨inFlight⟩, rest⟩
  · exact ⟨s, idleUnitStaysAsItIs s hin⟩
  · obtain ⟨t, -, hstep, -⟩ := step_command_completes hin
    exact ⟨t, hstep⟩
  · exact ⟨_, step_of_reset hin⟩

/-- Settles O7: the step goes on, and with a command outstanding it is that command's completion. -/
theorem everyCommandGetsAResponse : Obligations.EveryCommandGetsAResponse := by
  unfold Obligations.EveryCommandGetsAResponse
  intro s
  obtain ⟨t, hstep⟩ := step_goes_on s
  refine ⟨t, hstep, fun c rest hin => ?_⟩
  obtain ⟨t', r, hstep', -, hrest, hresp⟩ := step_command_completes hin
  obtain rfl : t = t' := Host.Outcome.next.inj (hstep.symm.trans hstep')
  exact ⟨hrest, r, hresp⟩

/-- Settles O2: only the CTL state is cleared, and the constant registers do not read the state. -/
theorem resetClearsControlStateAndDropsTheCommandInFlight :
    Obligations.ResetClearsControlStateAndDropsTheCommandInFlight :=
  fun s _ _ hin => ⟨_, step_of_reset hin, rfl, fun _ hro => readCsr_ro hro params _ s⟩

/-! ## A run of commands -/

theorem run_zero (s : State) : core.run 0 s = .next s := rfl

theorem run_succ {s t : State} (h : step s = .next t) (k : Nat) : core.run (k + 1) s = core.run k t := by
  have hcore : core.step s = .next t := h
  simp only [Host.Core.run, hcore]

/-- Settles O8, by induction on the commands: the first command's step leaves the state from which the others run. -/
theorem commandsInOrderGiveOneResponseEach : Obligations.CommandsInOrderGiveOneResponseEach := by
  unfold Obligations.CommandsInOrderGiveOneResponseEach
  intro commands
  induction commands with
  | nil =>
    intro s rest hin
    refine ⟨s, [], run_zero s, hin, (List.append_nil _).symm, rfl, fun k hk => ?_⟩
    obtain rfl : k = 0 := Nat.le_zero.1 hk
    exact ⟨s, run_zero s, hin, (List.append_nil _).symm, nofun⟩
  | cons c commands ih =>
    intro s rest hin
    obtain ⟨s₁, r, hstep, hfirst, hin₁, hresp₁⟩ := step_command_completes hin
    obtain ⟨t, answers, hrun, hrest, hresp, hlen, hprefix⟩ := ih s₁ rest hin₁
    have hcons (l : List Response) : s₁.responses ++ l = s.responses ++ r :: l := by
      rw [hresp₁, List.append_assoc, List.singleton_append]
    refine ⟨t, r :: answers, (run_succ hstep _).trans hrun, hrest, hresp.trans (hcons _), congrArg (· + 1) hlen, ?_⟩
    rintro (_ | k) hk
    · refine ⟨s, run_zero s, hin, (List.append_nil _).symm, fun c' hc' => ?_⟩
      obtain rfl : c = c' := Option.some.inj hc'
      exact ⟨s₁, hfirst, run_succ hstep 0⟩
    · obtain ⟨u, hu, huin, huresp, hnext⟩ := hprefix k (Nat.le_of_succ_le_succ hk)
      refine ⟨u, (run_succ hstep k).trans hu, huin, huresp.trans (hcons _), fun c' hc' => ?_⟩
      obtain ⟨v, hv, hrunv⟩ := hnext c' hc'
      exact ⟨v, hv, (run_succ hstep (k + 1)).trans hrunv⟩

/-! ## Several instances -/

theorem stepInstance_eq_set {k : Nat} {system : List State} {s t : State} (hk : system[k]? = some s)
    (hstep : step s = .next t) : stepInstance k system = .next (system.set k t) := by
  simp [stepInstance, hk, hstep]

/-- Settles O26: the system changes at the place of the instance that steps, and only there. -/
theorem instancesShareNoState : Obligations.InstancesShareNoState := by
  unfold Obligations.InstancesShareNoState
  intro k system s hk
  obtain ⟨t, hstep⟩ := step_goes_on s
  obtain ⟨hlt, -⟩ := List.getElem?_eq_some_iff.1 hk
  exact ⟨t, system.set k t, hstep, stepInstance_eq_set hk hstep, List.getElem?_set_self hlt,
    fun _ hj => List.getElem?_set_ne hj.symm⟩

end Sys2Proof.Machine
end
